-- ==== Sys2Proof/Word.lean ====
section
/-! DEFINITION. The two numeric types of the engine (`spec/00_scope.md` rule R8): an unsigned 8-bit
byte and an unsigned 32-bit word. Every helper over them is in `Machine/Bits.lean`. -/

namespace Sys2Proof

/-- `byte` of rule R8: an unsigned integer in `0 .. 255`. -/
abbrev Byte := BitVec 8

/-- `word` of rule R8: an unsigned integer in `0 .. 2^32 - 1`. -/
abbrev Word := BitVec 32

end Sys2Proof
end

