-- ==== Sys2Proof/Config.lean ====
section
/-! DEFINITION. What the spec leaves to the implementation: the size of the buffer memory
(`BUF_BYTES`, `spec/00_scope.md` rule R7, the one open parameter) and the contents of the buffer
memory after a hard reset (`spec/10_state.md` rule R45, unspecified). Both are constants with no
body: nothing in Lean can evaluate them or prove a value of them. -/

namespace Sys2Proof.Config

/-- The legal values of `BUF_BYTES` (rule R7, decision D3): a multiple of 64 with
`64 <= BUF_BYTES <= 2^31`. -/
def legalBufBytes (n : Nat) : Bool :=
  n % 64 == 0 && decide (64 ≤ n) && decide (n ≤ 2 ^ 31)

/-- An unknown natural number from which `bufBytes` is built. Free value, log entry 1. -/
opaque bufSizeChoice : Nat

/-- `BUF_BYTES` of the implementation, an unknown legal size: every multiple of 64 from 64 to `2^31`
is `64 * (1 + k)` for one `k < 2^25`, and nothing says which. Log entry 1. -/
def bufBytes : Nat := 64 * (1 + bufSizeChoice % 2 ^ 25)

/-- The byte of `BUF` at an address after the hard reset with the given number, until something
writes it (rules R45, R280, U1, U3: "any value"). Free value, log entry 2. -/
opaque freeBufByte : (resetNumber : Nat) → (addr : Nat) → Byte

end Sys2Proof.Config
end

