-- ==== Sys2Proof/Machine/HostEvent.lean ====
section
/-! DEFINITION. What the one agent outside the engine can do to it (`spec/10_state.md` rule R20,
`spec/20_memory.md` rules R66 and R67, `spec/70_reset_and_hazards.md` rule R280). -/

namespace Sys2Proof.Machine

/-- One act of the host, or of the platform's reset input. -/
inductive HostEvent where
  /-- `HostRead32(off)` (rule R66). -/
  | read (off : Word)
  /-- `HostWrite32(off, v)` (rule R67); a write to offset 0 presents the command word `v`. -/
  | write (off v : Word)
  /-- The hard reset input asserted and released (rule R280). -/
  | hardReset
  deriving DecidableEq, Repr

end Sys2Proof.Machine
end

