-- ==== Sys2Proof/Syntax.lean ====
section
/-! DEFINITION. The commands of the engine, one constructor per row of `spec/opcode_table.json`
(`spec/30_encoding.md` rule R90). No command carries an operand (rule R94). -/

namespace Sys2Proof

/-- The seven commands of rule R90. They stand where an instruction set would. -/
inductive Instr where
  /-- `NOP`: nothing (rule R205). -/
  | nop
  /-- `CLEAR`: the reset values of registers and flags, the error latch cleared (rule R206). -/
  | clear
  /-- `SHA_INIT`: `H <- HINIT` (rule R110). -/
  | shaInit
  /-- `SHA_BLOCK`: compresses the 64 bytes at `SRC` into `H` (rule R122). -/
  | shaBlock
  /-- `AES_KEYEXP`: expands `KEY`, `KEYLEN` into `KS` (rule R147). -/
  | aesKeyexp
  /-- `AES_DECBLK`: decrypts the 16 bytes at `SRC` in place with `KS` (rule R177). -/
  | aesDecblk
  /-- `CBC_DECRYPT`: expands the key, then decrypts `LEN` bytes at `SRC` in place with `IV`
  (rule R190). -/
  | cbcDecrypt
  deriving DecidableEq, Repr

end Sys2Proof
end

