-- ==== Sys2Proof/WellFormed.lean ====
section
/-! DEFINITION. What is well formed: a command (always: it carries no operand), a host access (its
offset is a multiple of 4), a command word (format C: bits 31:8 zero), a key length, a buffer
size. -/

namespace Sys2Proof

/-- A command has no field that could be out of range (`spec/30_encoding.md` rule R94), so every
term of `Instr` is well formed. -/
def Instr.wf : Instr → Bool
  | .nop => true
  | .clear => true
  | .shaInit => true
  | .shaBlock => true
  | .aesKeyexp => true
  | .aesDecblk => true
  | .cbcDecrypt => true

/-- Format C of rule R92: the field `zero`, bits 31:8, must be `0x000000`. -/
def wfFormatC (v : Word) : Bool := v.extractLsb' 8 24 == 0

/-- The host reads and writes only offsets that are multiples of 4 (`spec/20_memory.md` rule R65). -/
def wfOffset (off : Word) : Bool := off.toNat % 4 == 0

/-- The type rule R65 gives the two host access primitives: an offset that is a multiple of 4, carried with
its proof, so that a misaligned access to them cannot be written. -/
abbrev Offset := { off : Word // wfOffset off = true }

/-- A host event is well formed when its offset is (rule R65); a hard reset has no offset. -/
def Machine.HostEvent.wf : Machine.HostEvent → Bool
  | .read off => wfOffset off
  | .write off _ => wfOffset off
  | .hardReset => true

/-- The legal key lengths, in bytes and compared whole (`spec/41_aes_tables_keyexp.md` rule R147). -/
def wfKeyLength (n : Word) : Bool := n == 16 || n == 24 || n == 32

end Sys2Proof
end

