-- ==== Sys2Proof/Decode.lean ====
section
/-! DEFINITION. The command words: the decoder, total on 32-bit words and rejecting every illegal one
by name, and after it the encoder (`spec/30_encoding.md` rules R92, R95, R96). -/

namespace Sys2Proof

/-- What the decoder answers: a command, or the name of the rejection with the word rejected. -/
inductive Decoded where
  /-- The word is the command word of `i` (rule R92). -/
  | command (i : Instr)
  /-- The word is none of the seven command words (rule R95). -/
  | illegalCommand (v : Word)
  deriving DecidableEq, Repr

/-- One row of the table of rule R92. -/
structure CommandRow where
  instr : Instr
  pattern : Word
  mask : Word
  deriving DecidableEq, Repr

/-- The table of rule R92 (and of `spec/opcode_table.json`), row by row. -/
def commandTable : List CommandRow :=
  [ ⟨.nop,        0x00000000, 0xFFFFFFFF⟩,
    ⟨.clear,      0x00000001, 0xFFFFFFFF⟩,
    ⟨.shaInit,    0x00000010, 0xFFFFFFFF⟩,
    ⟨.shaBlock,   0x00000011, 0xFFFFFFFF⟩,
    ⟨.aesKeyexp,  0x00000020, 0xFFFFFFFF⟩,
    ⟨.aesDecblk,  0x00000021, 0xFFFFFFFF⟩,
    ⟨.cbcDecrypt, 0x00000030, 0xFFFFFFFF⟩ ]

/-- Rule R92: the word `v` selects a row with `v & mask = match`. -/
def CommandRow.selects (row : CommandRow) (v : Word) : Bool := v &&& row.mask == row.pattern

/-- The first row of a table that a word selects; a word that selects none is rejected by name. -/
def findCommand (v : Word) : List CommandRow → Decoded
  | [] => .illegalCommand v
  | row :: rows => if row.selects v then .command row.instr else findCommand v rows

/-- The decoder of rules R92, R95 and R96. -/
def decode (v : Word) : Decoded := findCommand v commandTable

/-- The opcode of a command, bits 7:0 of its word (rule R90). -/
def opcode : Instr → BitVec 8
  | .nop => 0x00
  | .clear => 0x01
  | .shaInit => 0x10
  | .shaBlock => 0x11
  | .aesKeyexp => 0x20
  | .aesDecblk => 0x21
  | .cbcDecrypt => 0x30

/-- The command word in format C of rule R92: twenty-four zero bits, then the opcode. -/
def encode (i : Instr) : Word := (0 : BitVec 24) ++ opcode i

/-- The decoder's answer as an option. -/
def Decoded.toOption : Decoded → Option Instr
  | .command i => some i
  | .illegalCommand _ => none

/-- The word that the low `nbits` bits of `w` make, every higher bit zero; a command is one 32-bit
word, presented whole to `CMD` (rule R26), so no byte order enters. -/
def tableWord (nbits w : Nat) : Nat := w % 2 ^ nbits

/-- The instruction the decoder reads from an instruction whose bits, numbered as
`spec/opcode_table.json` numbers them, are `w`. DESIGN CHOICE (log entry 4): a value that needs more than
32 bits, of which rule R92 says nothing, is no command word. -/
def decodeTableWord (nbits w : Nat) : Option Instr :=
  if tableWord nbits w < 2 ^ 32 then (decode (BitVec.ofNat 32 (tableWord nbits w))).toOption
  else none

end Sys2Proof
end

