-- ==== Sys2Proof/Machine/Bits.lean ====
section
/-! DEFINITION. Word and byte helpers (`spec/00_scope.md` rules R9, R10, R11): shifts, rotations,
and the one byte order of the engine. `+32`, `^`, `&`, `~` are the operations of `BitVec 32`. -/

namespace Sys2Proof.Machine

/-- `shr32(x, n)` of rule R9: zeros enter at the top. -/
def shr32 (x : Word) (n : Nat) : Word := x >>> n

/-- `rotr32(x, n)` of rule R9, for `0 < n < 32`. -/
def rotr32 (x : Word) (n : Nat) : Word := shr32 x n ||| x <<< (32 - n)

/-- `rotl32(x, n)` of rule R9, for `0 < n < 32`. -/
def rotl32 (x : Word) (n : Nat) : Word := rotr32 x (32 - n)

/-- `rotl8(x, n)` of rule R10, for `0 < n < 8`. -/
def rotl8 (x : Byte) (n : Nat) : Byte := x <<< n ||| x >>> (8 - n)

/-- `be32` of rule R11: four bytes make a word, the first byte most significant. -/
def be32 (b0 b1 b2 b3 : Byte) : Word :=
  BitVec.ofNat 32 (2 ^ 24 * b0.toNat + 2 ^ 16 * b1.toNat + 2 ^ 8 * b2.toNat + b3.toNat)

/-- `bytes_be32` of rule R11, the inverse of `be32`. -/
def bytesBe32 (w : Word) : Vector Byte 4 :=
  #v[w.extractLsb' 24 8, w.extractLsb' 16 8, w.extractLsb' 8 8, w.extractLsb' 0 8]

/-- `be32` of the four bytes of a sequence that start at index `k`; an index past the end reads 0
(no rule reaches one). -/
def be32At (b : List Byte) (k : Nat) : Word :=
  be32 (b.getD k 0) (b.getD (k + 1) 0) (b.getD (k + 2) 0) (b.getD (k + 3) 0)

/-- The bytes of a sequence of words, each by `bytes_be32`, in order (rule R23). -/
def wordBytes (ws : List Word) : List Byte := ws.flatMap fun w => (bytesBe32 w).toList

end Sys2Proof.Machine
end

