-- ==== Sys2Proof/Machine/Errors.lean ====
section
/-! DEFINITION. The six error causes and the codes they load into `ERR` (`spec/60_exceptions.md`
rules R250, R251). -/

namespace Sys2Proof.Machine

/-- The causes of rule R251. -/
inductive EngineError where
  /-- `LEN mod 16 != 0` in `CBC_DECRYPT`. -/
  | invalidLength
  /-- `KEYLEN` not in {16, 24, 32} in `AES_KEYEXP` or `CBC_DECRYPT`. -/
  | invalidKeyLength
  /-- A word written to `CMD` that is none of the seven command words. -/
  | illegalCommand
  /-- `SRC + n > BUF_BYTES` in `SHA_BLOCK`, `AES_DECBLK` or `CBC_DECRYPT`. -/
  | bufferRange
  /-- `H_VALID = 0` in `SHA_BLOCK`. -/
  | hashNotInitialised
  /-- `KS_VALID = 0` in `AES_DECBLK`. -/
  | keyNotExpanded
  deriving DecidableEq, Repr

/-- The code of a cause, rule R251. -/
def errorCode : EngineError → BitVec 8
  | .invalidLength => 0x01
  | .invalidKeyLength => 0x02
  | .illegalCommand => 0x03
  | .bufferRange => 0x04
  | .hashNotInitialised => 0x05
  | .keyNotExpanded => 0x06

end Sys2Proof.Machine
end

