-- ==== Sys2Proof/Machine/State.lean ====
section
/-! DEFINITION. The state of the engine (`spec/10_state.md` rule R21), the model's own fields beside
it, the state after hard reset (rule R45), and why a step can stop. -/

namespace Sys2Proof.Machine

/-- The buffer memory: the bytes something has written since the last hard reset, as pairs
(address, byte), addresses strictly rising. An address that is not listed has no value here; what
the machine then reads is `readByte` of `Machine/Ops.lean`, a free value (log entry 2). -/
abbrev Memory := List Host.Cell

/-- The one canonical form of a memory: addresses strictly rising. An unlisted address reads as "no
value", and no entry can equal that, so equal memories are equal lists. -/
def Memory.wf : Memory → Bool
  | [] => true
  | [_] => true
  | (a, _) :: (b, w) :: m => decide (a < b) && Memory.wf ((b, w) :: m)

/-- The state. The fields down to `buf` are the whole list of rule R21; the rest are the model's own:
the parameter, the free-value counter, and the host. -/
structure State where
  /-- `KEYLEN`: key length in bytes for the next key expansion. -/
  keylen : Word
  /-- `SRC`: byte offset into `BUF` of the data a command works on. -/
  src : Word
  /-- `LEN`: byte count for `CBC_DECRYPT`. -/
  len : Word
  /-- `KEY[0..7]`: key bytes 0 to 31. -/
  key : Vector Word 8
  /-- `IV[0..3]`: the 16-byte initialization vector. -/
  iv : Vector Word 4
  /-- `H[0..7]`: the SHA-256 chaining words. -/
  h : Vector Word 8
  /-- `H_VALID`: `H` was loaded by `SHA_INIT` since the last reset or `CLEAR`. -/
  hValid : Bool
  /-- `KS[0..59]`: the key schedule words. -/
  ks : Vector Word 60
  /-- `KS_NK`: `Nk` of the schedule in `KS`, one of 0, 4, 6, 8. -/
  ksNk : BitVec 4
  /-- `KS_VALID`: `KS` holds a complete schedule. -/
  ksValid : Bool
  /-- `ERR`: the error code latched, 0 when none. -/
  err : BitVec 8
  /-- `ERRINFO`: the value that caused the latched error. -/
  errinfo : Word
  /-- `BUF`: the bytes written since the last hard reset. -/
  buf : Memory
  /-- Model's own: the parameter `BUF_BYTES` of this engine (rule R7). No step writes it. -/
  bufBytes : Nat
  /-- Model's own: hard resets so far; the unwritten bytes of `BUF` are the free values of this
  number (log entry 2). -/
  resets : Nat
  /-- Model's own: what the host will do, first event first (log entry 3). -/
  pending : List HostEvent
  /-- Model's own: the words `HostRead32` has returned to the host, newest first (log entry 3). -/
  reads : List Word
  deriving DecidableEq, Repr

/-- Reasons for the machine to stop. There are none: the engine's errors are latched and the machine
goes on (`spec/60_exceptions.md` rule R253), a byte of `BUF` nothing has written does not fault
(`spec/10_state.md` rule R45), and an access to an unmapped offset does not either (rule R31). -/
inductive Fault where
  deriving DecidableEq, Repr

/-- Reasons for the model to give no result. -/
inductive Refusal where
  /-- Raised by an arm of `exec` whose command has no meaning yet (no arm is left so). Safe. -/
  | notModelled (mnemonic : String)
  /-- Raised by `hostAccess` of `Machine/Access.lean` for an access whose offset is not a multiple of
  4, which the host interface does not offer (`spec/20_memory.md` rule R65: "refused at the boundary,
  not given a value"). Safe. -/
  | misalignedHostAccess (off : Word)
  deriving DecidableEq, Repr

/-- The machine right after hard reset (rule R45): every register, flag and key-schedule word 0, every
byte of `BUF` unspecified, the host about to do nothing. -/
def State.reset : State where
  keylen := 0
  src := 0
  len := 0
  key := Vector.replicate 8 0
  iv := Vector.replicate 4 0
  h := Vector.replicate 8 0
  hValid := false
  ks := Vector.replicate 60 0
  ksNk := 0
  ksValid := false
  err := 0
  errinfo := 0
  buf := []
  bufBytes := Config.bufBytes
  resets := 0
  pending := []
  reads := []

end Sys2Proof.Machine
end

