-- ==== Sys2Proof/Machine/Ops.lean ====
section
/-! DEFINITION. The named operations over the buffer memory, the registers and the error latch; taking
an error (`raise`, rule R253) and the one way back out of it (`clearRegisters`, rules R206, R259). -/

namespace Sys2Proof.Machine

/-- What every meaning and every step answers with. -/
abbrev Result := Host.Outcome State Fault Refusal

/-! ### The buffer memory -/

/-- The byte written at an address, if something has written one since the last hard reset. -/
def Memory.get? : Memory → Nat → Option Byte
  | [], _ => none
  | (b, w) :: m, a => if a = b then some w else Memory.get? m a

/-- Writes one byte and keeps the addresses strictly rising. -/
def Memory.put (a : Nat) (v : Byte) : Memory → Memory
  | [] => [(a, v)]
  | (b, w) :: m =>
    if a < b then (a, v) :: (b, w) :: m
    else if a = b then (a, v) :: m
    else (b, w) :: Memory.put a v m

/-- Writes a sequence of bytes at rising addresses. -/
def Memory.putBytes (m : Memory) (a : Nat) : List Byte → Memory
  | [] => m
  | v :: vs => Memory.putBytes (Memory.put a v m) (a + 1) vs

/-- `BUF[a]`: the byte written there, or, where nothing has been written since the last hard reset,
the unspecified byte (`spec/10_state.md` rule R45; free value, log entry 2). -/
def readByte (s : State) (a : Nat) : Byte :=
  (s.buf.get? a).getD (Config.freeBufByte s.resets a)

/-- `MemRead(addr, n)` of `spec/00_scope.md` rule R13, which calls it only inside `BUF` (log entry 14). -/
def memRead (s : State) (addr n : Nat) : Vector Byte n :=
  Vector.ofFn fun i => readByte s (addr + i.val)

/-- `MemWrite(addr, n, B)` of rule R13, which calls it only inside `BUF` (log entry 14). -/
def memWrite {n : Nat} (s : State) (addr : Nat) (b : Vector Byte n) : State :=
  { s with buf := s.buf.putBytes addr b.toList }

/-! ### Registers -/

/-- `KEYLEN <- v`. -/
def State.setKeylen (s : State) (v : Word) : State := { s with keylen := v }

/-- `SRC <- v`. -/
def State.setSrc (s : State) (v : Word) : State := { s with src := v }

/-- `LEN <- v`. -/
def State.setLen (s : State) (v : Word) : State := { s with len := v }

/-- `KEY[i] <- v`. -/
def State.setKeyWord (s : State) (i : Fin 8) (v : Word) : State := { s with key := s.key.set i v }

/-- `IV[i] <- v`. -/
def State.setIvWord (s : State) (i : Fin 4) (v : Word) : State := { s with iv := s.iv.set i v }

/-- `H[0..7] <- h`. -/
def State.setHash (s : State) (h : Vector Word 8) : State := { s with h := h }

/-- `H_VALID <- 1` (rule R25: only `SHA_INIT` sets it). -/
def State.markHashValid (s : State) : State := { s with hValid := true }

/-- A key expansion that completes: `KS <- ks; KS_NK <- nk; KS_VALID <- 1` (rules R25, R147, R190). -/
def State.setSchedule (s : State) (ks : Vector Word 60) (nk : Nat) : State :=
  { s with ks := ks, ksNk := BitVec.ofNat 4 nk, ksValid := true }

/-! ### The error latch -/

/-- Raising an error, `raise E(info)` (rules R14, R253): `ERR` and `ERRINFO` are loaded and nothing
else changes; control goes nowhere. -/
def latchError (e : EngineError) (info : Word) (s : State) : State :=
  { s with err := errorCode e, errinfo := info }

/-- `raise` as the end of a command: the machine goes on in the state with the error latched. -/
def raise (e : EngineError) (info : Word) (s : State) : Result := .next (latchError e info s)

/-- The gate of rules R93 and R255: while `ERR != 0` a command is dropped with no effect at all. -/
def unlessLatched (s : State) (body : Result) : Result := if s.err = 0 then body else .next s

/-- The pseudocode of `CLEAR` (rule R206), which is also what hard reset does to registers and flags
(rules R45, R281): everything but `BUF` to its reset value. -/
def clearRegisters (s : State) : State :=
  { s with
    err := 0, errinfo := 0
    keylen := 0, src := 0, len := 0
    key := Vector.replicate 8 0
    iv := Vector.replicate 4 0
    h := Vector.replicate 8 0
    hValid := false
    ks := Vector.replicate 60 0
    ksNk := 0, ksValid := false }

/-- Hard reset (rule R280): registers and flags as `CLEAR` leaves them, every byte of `BUF`
unspecified again (a new family of free values, log entry 2). -/
def hardReset (s : State) : State :=
  { clearRegisters s with buf := [], resets := s.resets + 1 }

/-! ### The host's side of the state -/

/-- The host has performed its first pending event; `rest` is what it still has to do. -/
def State.setPending (s : State) (rest : List HostEvent) : State := { s with pending := rest }

/-- The host has received the word of a `HostRead32`. -/
def State.giveHost (s : State) (v : Word) : State := { s with reads := v :: s.reads }

end Sys2Proof.Machine
end

