-- ==== Sys2Proof/Machine/Operands.lean ====
section
/-! DEFINITION. The implicit operands of the commands (`spec/30_encoding.md` rule R94): the key, IV
and digest bytes (`spec/10_state.md` rule R23), the key length, and the data range at `SRC`
(`spec/60_exceptions.md` rule R256). -/

namespace Sys2Proof.Machine

/-- The sixteen bytes an AES block holds (`spec/42_aes_decrypt.md` rule R170). -/
abbrev Block := Vector Byte 16

/-- `Nk = KEYLEN / 4` (rule R147). -/
def keyWordCount (s : State) : Nat := s.keylen.toNat / 4

/-- `bytes_be32(KEY[0]), ..., bytes_be32(KEY[nk-1])`: the first `4 nk` key bytes (rules R23, R147). -/
def keyBytes (s : State) (nk : Nat) : List Byte := wordBytes (s.key.toList.take nk)

/-- The sixteen IV bytes, `bytes_be32(IV[0]), ..., bytes_be32(IV[3])` (rule R23). -/
def ivBytes (s : State) : Block :=
  Vector.ofFn fun n => (bytesBe32 s.iv[n.val / 4])[n.val % 4]

/-- The 32 digest bytes, `bytes_be32(H[0]), ..., bytes_be32(H[7])` (rule R23). -/
def digestBytes (h : Vector Word 8) : List Byte := wordBytes h.toList

/-- Rule R147, check 1: `KEYLEN` is 16, 24 or 32, all 32 bits compared. -/
def legalKeyLength (s : State) : Bool := wfKeyLength s.keylen

/-- The range check of rule R256: `SRC + n > BUF_BYTES`, the sum taken in the integers. -/
def outOfRange (s : State) (n : Nat) : Bool := decide (s.src.toNat + n > s.bufBytes)

/-- Rule R190, check 1: `LEN mod 16 != 0`. -/
def badLength (s : State) : Bool := decide (s.len.toNat % 16 ≠ 0)

end Sys2Proof.Machine
end

