-- ==== Sys2Proof/Machine/AesKey.lean ====
section
/-! DEFINITION. The AES unit, first part (`spec/41_aes_tables_keyexp.md`): GF(2^8), the S-box pair, the
key expansion, and the command `AES_KEYEXP`. -/

namespace Sys2Proof.Machine

/-! ### Arithmetic in GF(2^8) -/

/-- The doubling step of rule R140: shift left one bit, drop bit 8, and exclusive-or `0x1B` if the high
bit was set. -/
def xtime (a : Byte) : Byte := a <<< 1 ^^^ if a.msb then 0x1B else 0

/-- The loop of rule R140, `n` more times, with the accumulator `p`. -/
def gmulLoop : Nat → Byte → Byte → Byte → Byte
  | 0, _, _, p => p
  | n + 1, a, b, p => gmulLoop n (xtime a) (b >>> 1) (if b.getLsbD 0 then p ^^^ a else p)

/-- `gmul(a, b)`, the product in GF(2^8) modulo `0x11B` (rule R140). -/
def gmul (a b : Byte) : Byte := gmulLoop 8 a b 0

/-- `n` steps of squaring `a` and multiplying the square into `p`; from `p = 1` the result is `a` to
the power `2^(n+1) - 2`. -/
def gpowLoop : Nat → Byte → Byte → Byte
  | 0, _, p => p
  | n + 1, a, p =>
    let sq := gmul a a
    gpowLoop n sq (gmul p sq)

/-- `ginv(a)` of rule R141, found as `a^254`. The spec does not fix how it is found (U12); that it is the
inverse, with 0 mapping to 0, is `gmul_ginv` and `ginv_zero` of `Laws/AesTables.lean`. -/
def ginv (a : Byte) : Byte := gpowLoop 7 a 1

/-! ### The S-box pair -/

/-- A table of 16 rows of 16 bytes, read at an unsigned byte `x`: row `x / 16`, column `x mod 16`
(rules R142, R143). -/
def tableLookup (t : List (List Byte)) (x : Byte) : Byte :=
  (t.getD (x.toNat / 16) []).getD (x.toNat % 16) 0

/-- The table of rule R142. -/
def sboxTable : List (List Byte) :=
  [[0x63, 0x7c, 0x77, 0x7b, 0xf2, 0x6b, 0x6f, 0xc5, 0x30, 0x01, 0x67, 0x2b, 0xfe, 0xd7, 0xab, 0x76],
   [0xca, 0x82, 0xc9, 0x7d, 0xfa, 0x59, 0x47, 0xf0, 0xad, 0xd4, 0xa2, 0xaf, 0x9c, 0xa4, 0x72, 0xc0],
   [0xb7, 0xfd, 0x93, 0x26, 0x36, 0x3f, 0xf7, 0xcc, 0x34, 0xa5, 0xe5, 0xf1, 0x71, 0xd8, 0x31, 0x15],
   [0x04, 0xc7, 0x23, 0xc3, 0x18, 0x96, 0x05, 0x9a, 0x07, 0x12, 0x80, 0xe2, 0xeb, 0x27, 0xb2, 0x75],
   [0x09, 0x83, 0x2c, 0x1a, 0x1b, 0x6e, 0x5a, 0xa0, 0x52, 0x3b, 0xd6, 0xb3, 0x29, 0xe3, 0x2f, 0x84],
   [0x53, 0xd1, 0x00, 0xed, 0x20, 0xfc, 0xb1, 0x5b, 0x6a, 0xcb, 0xbe, 0x39, 0x4a, 0x4c, 0x58, 0xcf],
   [0xd0, 0xef, 0xaa, 0xfb, 0x43, 0x4d, 0x33, 0x85, 0x45, 0xf9, 0x02, 0x7f, 0x50, 0x3c, 0x9f, 0xa8],
   [0x51, 0xa3, 0x40, 0x8f, 0x92, 0x9d, 0x38, 0xf5, 0xbc, 0xb6, 0xda, 0x21, 0x10, 0xff, 0xf3, 0xd2]] ++
  [[0xcd, 0x0c, 0x13, 0xec, 0x5f, 0x97, 0x44, 0x17, 0xc4, 0xa7, 0x7e, 0x3d, 0x64, 0x5d, 0x19, 0x73],
   [0x60, 0x81, 0x4f, 0xdc, 0x22, 0x2a, 0x90, 0x88, 0x46, 0xee, 0xb8, 0x14, 0xde, 0x5e, 0x0b, 0xdb],
   [0xe0, 0x32, 0x3a, 0x0a, 0x49, 0x06, 0x24, 0x5c, 0xc2, 0xd3, 0xac, 0x62, 0x91, 0x95, 0xe4, 0x79],
   [0xe7, 0xc8, 0x37, 0x6d, 0x8d, 0xd5, 0x4e, 0xa9, 0x6c, 0x56, 0xf4, 0xea, 0x65, 0x7a, 0xae, 0x08],
   [0xba, 0x78, 0x25, 0x2e, 0x1c, 0xa6, 0xb4, 0xc6, 0xe8, 0xdd, 0x74, 0x1f, 0x4b, 0xbd, 0x8b, 0x8a],
   [0x70, 0x3e, 0xb5, 0x66, 0x48, 0x03, 0xf6, 0x0e, 0x61, 0x35, 0x57, 0xb9, 0x86, 0xc1, 0x1d, 0x9e],
   [0xe1, 0xf8, 0x98, 0x11, 0x69, 0xd9, 0x8e, 0x94, 0x9b, 0x1e, 0x87, 0xe9, 0xce, 0x55, 0x28, 0xdf],
   [0x8c, 0xa1, 0x89, 0x0d, 0xbf, 0xe6, 0x42, 0x68, 0x41, 0x99, 0x2d, 0x0f, 0xb0, 0x54, 0xbb, 0x16]]

/-- The table of rule R143. -/
def invSboxTable : List (List Byte) :=
  [[0x52, 0x09, 0x6a, 0xd5, 0x30, 0x36, 0xa5, 0x38, 0xbf, 0x40, 0xa3, 0x9e, 0x81, 0xf3, 0xd7, 0xfb],
   [0x7c, 0xe3, 0x39, 0x82, 0x9b, 0x2f, 0xff, 0x87, 0x34, 0x8e, 0x43, 0x44, 0xc4, 0xde, 0xe9, 0xcb],
   [0x54, 0x7b, 0x94, 0x32, 0xa6, 0xc2, 0x23, 0x3d, 0xee, 0x4c, 0x95, 0x0b, 0x42, 0xfa, 0xc3, 0x4e],
   [0x08, 0x2e, 0xa1, 0x66, 0x28, 0xd9, 0x24, 0xb2, 0x76, 0x5b, 0xa2, 0x49, 0x6d, 0x8b, 0xd1, 0x25],
   [0x72, 0xf8, 0xf6, 0x64, 0x86, 0x68, 0x98, 0x16, 0xd4, 0xa4, 0x5c, 0xcc, 0x5d, 0x65, 0xb6, 0x92],
   [0x6c, 0x70, 0x48, 0x50, 0xfd, 0xed, 0xb9, 0xda, 0x5e, 0x15, 0x46, 0x57, 0xa7, 0x8d, 0x9d, 0x84],
   [0x90, 0xd8, 0xab, 0x00, 0x8c, 0xbc, 0xd3, 0x0a, 0xf7, 0xe4, 0x58, 0x05, 0xb8, 0xb3, 0x45, 0x06],
   [0xd0, 0x2c, 0x1e, 0x8f, 0xca, 0x3f, 0x0f, 0x02, 0xc1, 0xaf, 0xbd, 0x03, 0x01, 0x13, 0x8a, 0x6b]] ++
  [[0x3a, 0x91, 0x11, 0x41, 0x4f, 0x67, 0xdc, 0xea, 0x97, 0xf2, 0xcf, 0xce, 0xf0, 0xb4, 0xe6, 0x73],
   [0x96, 0xac, 0x74, 0x22, 0xe7, 0xad, 0x35, 0x85, 0xe2, 0xf9, 0x37, 0xe8, 0x1c, 0x75, 0xdf, 0x6e],
   [0x47, 0xf1, 0x1a, 0x71, 0x1d, 0x29, 0xc5, 0x89, 0x6f, 0xb7, 0x62, 0x0e, 0xaa, 0x18, 0xbe, 0x1b],
   [0xfc, 0x56, 0x3e, 0x4b, 0xc6, 0xd2, 0x79, 0x20, 0x9a, 0xdb, 0xc0, 0xfe, 0x78, 0xcd, 0x5a, 0xf4],
   [0x1f, 0xdd, 0xa8, 0x33, 0x88, 0x07, 0xc7, 0x31, 0xb1, 0x12, 0x10, 0x59, 0x27, 0x80, 0xec, 0x5f],
   [0x60, 0x51, 0x7f, 0xa9, 0x19, 0xb5, 0x4a, 0x0d, 0x2d, 0xe5, 0x7a, 0x9f, 0x93, 0xc9, 0x9c, 0xef],
   [0xa0, 0xe0, 0x3b, 0x4d, 0xae, 0x2a, 0xf5, 0xb0, 0xc8, 0xeb, 0xbb, 0x3c, 0x83, 0x53, 0x99, 0x61],
   [0x17, 0x2b, 0x04, 0x7e, 0xba, 0x77, 0xd6, 0x26, 0xe1, 0x69, 0x14, 0x63, 0x55, 0x21, 0x0c, 0x7d]]

/-- `SBOX[x]`, rule R142. -/
def sbox (x : Byte) : Byte := tableLookup sboxTable x

/-- `INV_SBOX[x]`, rule R143. -/
def invSbox (x : Byte) : Byte := tableLookup invSboxTable x

/-! ### Pieces of the key expansion -/

/-- `rcon(j)` for `j >= 1` (rule R144): 1 doubled `j - 1` times. `rcon(0)` is never used. -/
def rcon : Nat → Byte
  | 0 => 1
  | 1 => 1
  | j + 2 => gmul (rcon (j + 1)) 0x02

/-- `RotWord`, rule R145. -/
def rotWord (w : Word) : Word := rotl32 w 8

/-- `SubWord`, rule R145. -/
def subWord (w : Word) : Word :=
  let b := bytesBe32 w
  be32 (sbox b[0]) (sbox b[1]) (sbox b[2]) (sbox b[3])

/-- `RconWord(j)`, rule R145: the constant in the most significant byte. -/
def rconWord (j : Nat) : Word := rcon j ++ (0 : BitVec 24)

/-- What rule R146 makes of `temp = w[i-1]` before the exclusive-or with `w[i-Nk]`, which is made in all
three cases (`spec/90_conflicts.md` C3). -/
def scheduleTemp (nk i : Nat) (temp : Word) : Word :=
  if i % nk = 0 then subWord (rotWord temp) ^^^ rconWord (i / nk)
  else if nk > 6 ∧ i % nk = 4 then subWord temp
  else temp

/-- The loop of rule R146 from index `i`, `n` more words; `w` is newest first, so `w[i-k]` is at index
`k - 1`. -/
def expandLoop (nk : Nat) : Nat → Nat → List Word → List Word
  | 0, _, w => w
  | n + 1, i, w =>
    expandLoop nk n (i + 1) ((w.getD (nk - 1) 0 ^^^ scheduleTemp nk i (w.getD 0 0)) :: w)

/-- The number of words of a schedule, `4 * (Nr + 1)` with `Nr = Nk + 6` (rules R7, R32). -/
def scheduleWords (nk : Nat) : Nat := 4 * (nk + 6 + 1)

/-- `ExpandKey(key, Nk)` of rule R146, the words in order. -/
def expandKey (key : List Byte) (nk : Nat) : List Word :=
  (expandLoop nk (scheduleWords nk - nk) nk
    ((List.range nk).map fun i => be32At key (4 * i)).reverse).reverse

/-- The schedule store after an expansion: the words, and 0 above them (rules R32, R147). -/
def scheduleStore (w : List Word) : Vector Word 60 := Vector.ofFn fun i => w.getD i.val 0

/-- The writes of `AES_KEYEXP` (rule R147), which `CBC_DECRYPT` makes too (rule R190). -/
def expandIntoKs (s : State) : State :=
  s.setSchedule (scheduleStore (expandKey (keyBytes s (keyWordCount s)) (keyWordCount s)))
    (keyWordCount s)

/-! ### The command -/

/-- `AES_KEYEXP`, rule R147. -/
def execAesKeyexp (s : State) : Result :=
  unlessLatched s <|
    if legalKeyLength s = false then raise .invalidKeyLength s.keylen s
    else .next (expandIntoKs s)

end Sys2Proof.Machine
end

