-- ==== Sys2Proof/Machine/AesDec.lean ====
section
/-! DEFINITION. The AES unit, second part (`spec/42_aes_decrypt.md`): the three transformations,
`DecryptBlock`, and the command `AES_DECBLK`. The order of the steps in a round, and the substitution in
the final round, are those of rule R176 (`spec/90_conflicts.md` C1 and C2). -/

namespace Sys2Proof.Machine

/-- Byte `n` of round key `r`: byte `n mod 4` of `bytes_be32(KS[4r + n / 4])` (rule R172). An index past
the store reads 0 (no rule reaches one). -/
def roundKeyByte (ks : Vector Word 60) (r n : Nat) : Byte :=
  (bytesBe32 (ks.toList.getD (4 * r + n / 4) 0)).toList.getD (n % 4) 0

/-- `AddRoundKey(S, r)`, rule R172. -/
def addRoundKey (ks : Vector Word 60) (r : Nat) (st : Block) : Block :=
  Vector.ofFn fun n => st[n.val] ^^^ roundKeyByte ks r n.val

/-- The source index of rule R173: byte `4j + i` comes from row `i` of column `(j - i + 4) mod 4`. -/
def invShiftIndex (n : Fin 16) : Fin 16 :=
  ⟨4 * ((n.val / 4 + 4 - n.val % 4) % 4) + n.val % 4, by omega⟩

/-- `InvShiftSub(S)`, rule R173: every output byte from the state as it was before. -/
def invShiftSub (st : Block) : Block := Vector.ofFn fun n => invSbox st[invShiftIndex n]

/-- Byte `k` (mod 4) of the column of index `n`. -/
def columnByte (st : Block) (n : Fin 16) (k : Nat) : Byte :=
  st[4 * (n.val / 4) + (n.val % 4 + k) % 4]

/-- `InvMixColumns(S)`, rule R174. -/
def invMixColumns (st : Block) : Block :=
  Vector.ofFn fun n =>
    gmul (columnByte st n 0) 0x0E ^^^ gmul (columnByte st n 1) 0x0B ^^^
      gmul (columnByte st n 2) 0x0D ^^^ gmul (columnByte st n 3) 0x09

/-- Rounds `r` down to 1 of rule R176. -/
def decryptRounds (ks : Vector Word 60) : Nat → Block → Block
  | 0, st => st
  | r + 1, st =>
    decryptRounds ks r (invMixColumns (addRoundKey ks (r + 1) (invShiftSub st)))

/-- `DecryptBlock(C)` of rule R176, with the schedule `ks` and `Nr = nk + 6`. -/
def decryptBlock (ks : Vector Word 60) (nk : Nat) (c : Block) : Block :=
  addRoundKey ks 0 (invShiftSub (decryptRounds ks (nk + 5) (addRoundKey ks (nk + 6) c)))

/-- `AES_DECBLK`, rule R177: its two checks in order, then the block at `SRC` decrypted in place. -/
def execAesDecblk (s : State) : Result :=
  unlessLatched s <|
    if s.ksValid = false then raise .keyNotExpanded 0 s
    else if outOfRange s 16 then raise .bufferRange s.src s
    else
      .next (memWrite s s.src.toNat
        (decryptBlock s.ks s.ksNk.toNat (memRead s s.src.toNat 16)))

end Sys2Proof.Machine
end

