-- ==== Sys2Proof/Machine/Cbc.lean ====
section
/-! DEFINITION. The CBC unit (`spec/43_cbc.md`): the chaining loop and the command `CBC_DECRYPT`. -/

namespace Sys2Proof.Machine

/-- Bytewise exclusive-or of two blocks (rule R191). -/
def xorBlock (p q : Block) : Block := Vector.ofFn fun n => p[n.val] ^^^ q[n.val]

/-- The chaining loop of rules R190 and R191: `m` block steps from address `a`, with the feedback
`prev`. The ciphertext block is captured before its plaintext is written over it. -/
def cbcLoop : (m a : Nat) → (prev : Block) → State → State
  | 0, _, _, s => s
  | m + 1, a, prev, s =>
    let ctsave := memRead s a 16
    let p := xorBlock (decryptBlock s.ks s.ksNk.toNat ctsave) prev
    cbcLoop m (a + 16) ctsave (memWrite s a p)

/-- `CBC_DECRYPT`, rule R190: its three checks in order, the key expansion, the chaining loop. -/
def execCbcDecrypt (s : State) : Result :=
  unlessLatched s <|
    if badLength s then raise .invalidLength s.len s
    else if legalKeyLength s = false then raise .invalidKeyLength s.keylen s
    else if outOfRange s s.len.toNat then raise .bufferRange s.src s
    else .next (cbcLoop (s.len.toNat / 16) s.src.toNat (ivBytes s) (expandIntoKs s))

end Sys2Proof.Machine
end

