-- ==== Sys2Proof/Machine/Sha.lean ====
section
/-! DEFINITION. The SHA unit (`spec/40_sha256.md`): tables, functions, `Compress`, and the commands
`SHA_INIT` and `SHA_BLOCK`. -/

namespace Sys2Proof.Machine

/-! ### Constant tables -/

/-- The round constants `K[0..63]`, row by row as rule R111 lists them. -/
def roundConstants : List Word :=
  [0x428a2f98, 0x71374491, 0xb5c0fbcf, 0xe9b5dba5, 0x3956c25b, 0x59f111f1, 0x923f82a4, 0xab1c5ed5] ++
  [0xd807aa98, 0x12835b01, 0x243185be, 0x550c7dc3, 0x72be5d74, 0x80deb1fe, 0x9bdc06a7, 0xc19bf174] ++
  [0xe49b69c1, 0xefbe4786, 0x0fc19dc6, 0x240ca1cc, 0x2de92c6f, 0x4a7484aa, 0x5cb0a9dc, 0x76f988da] ++
  [0x983e5152, 0xa831c66d, 0xb00327c8, 0xbf597fc7, 0xc6e00bf3, 0xd5a79147, 0x06ca6351, 0x14292967] ++
  [0x27b70a85, 0x2e1b2138, 0x4d2c6dfc, 0x53380d13, 0x650a7354, 0x766a0abb, 0x81c2c92e, 0x92722c85] ++
  [0xa2bfe8a1, 0xa81a664b, 0xc24b8b70, 0xc76c51a3, 0xd192e819, 0xd6990624, 0xf40e3585, 0x106aa070] ++
  [0x19a4c116, 0x1e376c08, 0x2748774c, 0x34b0bcb5, 0x391c0cb3, 0x4ed8aa4a, 0x5b9cca4f, 0x682e6ff3] ++
  [0x748f82ee, 0x78a5636f, 0x84c87814, 0x8cc70208, 0x90befffa, 0xa4506ceb, 0xbef9a3f7, 0xc67178f2]

/-- `HINIT[0..7]`, rule R112. -/
def hInit : Vector Word 8 :=
  #v[0x6a09e667, 0xbb67ae85, 0x3c6ef372, 0xa54ff53a, 0x510e527f, 0x9b05688c, 0x1f83d9ab, 0x5be0cd19]

/-! ### Functions on words -/

/-- `sig0`, rule R113. -/
def smallSigma0 (x : Word) : Word := rotr32 x 7 ^^^ rotr32 x 18 ^^^ shr32 x 3

/-- `sig1`, rule R113. -/
def smallSigma1 (x : Word) : Word := rotr32 x 17 ^^^ rotr32 x 19 ^^^ shr32 x 10

/-- `Sig0`, rule R114. -/
def bigSigma0 (x : Word) : Word := rotr32 x 2 ^^^ rotr32 x 13 ^^^ rotr32 x 22

/-- `Sig1`, rule R114. -/
def bigSigma1 (x : Word) : Word := rotr32 x 6 ^^^ rotr32 x 11 ^^^ rotr32 x 25

/-- `Ch`, rule R115. -/
def choice (x y z : Word) : Word := (x &&& y) ^^^ (~~~x &&& z)

/-- `Maj`, rule R115. -/
def majority (x y z : Word) : Word := (x &&& y) ^^^ (x &&& z) ^^^ (y &&& z)

/-! ### The message schedule -/

/-- Rule R117: `W[t] = be32(B[4t], B[4t+1], B[4t+2], B[4t+3])` for `t = 0 .. 15`. -/
def blockWords (b : List Byte) : List Word := (List.range 16).map fun t => be32At b (4 * t)

/-- Rule R118: the next schedule word `W[t]` from the words before it, newest first (so `W[t-k]` is at
index `k - 1`). -/
def nextScheduleWord (w : List Word) : Word :=
  smallSigma1 (w.getD 1 0) + w.getD 6 0 + smallSigma0 (w.getD 14 0) + w.getD 15 0

/-- `n` further schedule words, newest first. -/
def extendSchedule : Nat → List Word → List Word
  | 0, w => w
  | n + 1, w => extendSchedule n (nextScheduleWord w :: w)

/-- `W[0..63]` of a block, in order (rules R117, R118). -/
def messageSchedule (b : Vector Byte 64) : List Word :=
  (extendSchedule 48 (blockWords b.toList).reverse).reverse

/-! ### The rounds -/

/-- The eight working variables of rule R119. -/
structure Working where
  a : Word
  b : Word
  c : Word
  d : Word
  e : Word
  f : Word
  g : Word
  h : Word
  deriving DecidableEq, Repr

/-- Rule R119: the working variables loaded from the chaining words. -/
def loadWorking (h : Vector Word 8) : Working :=
  ⟨h[0], h[1], h[2], h[3], h[4], h[5], h[6], h[7]⟩

/-- One round, rule R120, with its round constant `k` and schedule word `w`. -/
def shaRound (v : Working) (k w : Word) : Working :=
  let t1 := v.h + bigSigma1 v.e + choice v.e v.f v.g + k + w
  let t2 := bigSigma0 v.a + majority v.a v.b v.c
  ⟨t1 + t2, v.a, v.b, v.c, v.d + t1, v.e, v.f, v.g⟩

/-- The rounds in order, one for each pair of round constant and schedule word. -/
def shaRounds : List (Word × Word) → Working → Working
  | [], v => v
  | (k, w) :: rest, v => shaRounds rest (shaRound v k w)

/-- Rule R121: the working variables added back into the chaining words. -/
def feedForward (h : Vector Word 8) (v : Working) : Vector Word 8 :=
  #v[h[0] + v.a, h[1] + v.b, h[2] + v.c, h[3] + v.d, h[4] + v.e, h[5] + v.f, h[6] + v.g, h[7] + v.h]

/-- `Compress(Hin, B)` of rule R123. -/
def compress (hin : Vector Word 8) (b : Vector Byte 64) : Vector Word 8 :=
  feedForward hin (shaRounds (roundConstants.zip (messageSchedule b)) (loadWorking hin))

/-! ### The commands -/

/-- `SHA_INIT`, rule R110. -/
def execShaInit (s : State) : Result :=
  unlessLatched s (.next (s.setHash hInit).markHashValid)

/-- `SHA_BLOCK`, rule R122: its two checks in order, then `H <- Compress(H, MemRead(SRC, 64))`. -/
def execShaBlock (s : State) : Result :=
  unlessLatched s <|
    if s.hValid = false then raise .hashNotInitialised 0 s
    else if outOfRange s 64 then raise .bufferRange s.src s
    else .next (s.setHash (compress s.h (memRead s s.src.toNat 64)))

end Sys2Proof.Machine
end

