-- ==== Sys2Proof/Machine/System.lean ====
section
/-! DEFINITION. The system commands `NOP` and `CLEAR` (`spec/44_system_commands.md`). -/

namespace Sys2Proof.Machine

/-- `NOP`, rule R205: no effect, whether taken or dropped. -/
def execNop (s : State) : Result := .next s

/-- `CLEAR`, rule R206: taken whether or not an error is latched; `BUF` stays as it is. -/
def execClear (s : State) : Result := .next (clearRegisters s)

end Sys2Proof.Machine
end

