-- ==== Sys2Proof/Machine/Dispatch.lean ====
section
/-! DEFINITION. One arm per command (`spec/30_encoding.md` rule R90). -/

namespace Sys2Proof.Machine

def exec (i : Instr) (s : State) : Host.Outcome State Fault Refusal :=
  match i with
  | .nop => Sys2Proof.Machine.execNop s
  | .clear => Sys2Proof.Machine.execClear s
  | .shaInit => Sys2Proof.Machine.execShaInit s
  | .shaBlock => Sys2Proof.Machine.execShaBlock s
  | .aesKeyexp => Sys2Proof.Machine.execAesKeyexp s
  | .aesDecblk => Sys2Proof.Machine.execAesDecblk s
  | .cbcDecrypt => Sys2Proof.Machine.execCbcDecrypt s

end Sys2Proof.Machine
end

