-- ==== Sys2Proof/Machine/Command.lean ====
section
/-! DEFINITION. The engine takes a command word (`spec/30_encoding.md` rules R93, R95). -/

namespace Sys2Proof.Machine

/-- Taking the command word `v` (rule R93). A command word is performed (each meaning drops itself while
an error is latched, but for `CLEAR`); any other word raises `IllegalCommand`, or is dropped while an
error is latched. -/
def takeCommand (v : Word) (s : State) : Result :=
  match decode v with
  | .command i => exec i s
  | .illegalCommand w => unlessLatched s (raise .illegalCommand w s)

end Sys2Proof.Machine
end

