-- ==== Sys2Proof/Machine/Flags.lean ====
section
/-! DEFINITION. The flags and the view `STATUS` of them (`spec/10_state.md` rules R25, R27). The engine
has no condition codes: no sum sets a flag. -/

namespace Sys2Proof.Machine

/-- `BUSY`: always 0, since a command has finished before any later host access (rules R27, R91). -/
def busy (_ : State) : Bool := false

/-- `ERRF`: 1 if `ERR != 0` (rule R27). -/
def errf (s : State) : Bool := s.err != 0

/-- `STATUS` (rule R27): bit 0 `BUSY`, 1 `ERRF`, 2 `H_VALID`, 3 `KS_VALID`, 7:4 zero, 11:8 `KS_NK`,
31:12 zero. It has no storage of its own. -/
def status (s : State) : Word :=
  (0 : BitVec 20) ++ s.ksNk ++ (0 : BitVec 4) ++ BitVec.ofBool s.ksValid ++
    BitVec.ofBool s.hValid ++ BitVec.ofBool (errf s) ++ BitVec.ofBool (busy s)

end Sys2Proof.Machine
end

