-- ==== Sys2Proof/Machine/HostMap.lean ====
section
/-! DEFINITION. The register map of the host address space (`spec/10_state.md` rule R30). -/

namespace Sys2Proof.Machine

/-- What stands at an offset. -/
inductive HostTarget where
  | cmd
  | status
  | err
  | errinfo
  | keylen
  | src
  | len
  | key (i : Fin 8)
  | iv (i : Fin 4)
  | h (i : Fin 8)
  /-- The buffer window: the word at byte address `a` of `BUF`. -/
  | window (a : Nat)
  /-- Reserved or unmapped: reads 0, write ignored (rule R31). -/
  | nothing
  deriving DecidableEq, Repr

/-- The map of rule R30. -/
def hostMap (bufBytes : Nat) (off : Offset) : HostTarget :=
  let o := off.val.toNat
  if o = 0x000 then .cmd
  else if o = 0x004 then .status
  else if o = 0x008 then .err
  else if o = 0x00C then .errinfo
  else if o = 0x010 then .keylen
  else if o = 0x014 then .src
  else if o = 0x018 then .len
  else if 0x020 ≤ o ∧ o < 0x040 then .key (Fin.ofNat 8 ((o - 0x020) / 4))
  else if 0x040 ≤ o ∧ o < 0x050 then .iv (Fin.ofNat 4 ((o - 0x040) / 4))
  else if 0x060 ≤ o ∧ o < 0x080 then .h (Fin.ofNat 8 ((o - 0x060) / 4))
  else if 0x1000 ≤ o ∧ o < 0x1000 + bufBytes then .window (o - 0x1000)
  else .nothing

end Sys2Proof.Machine
end

