-- ==== Sys2Proof/Machine/Access.lean ====
section
/-! DEFINITION. The host access primitives (`spec/20_memory.md` rules R63, R65, R66, R67) and one event of
the world outside the engine (rule R75: one at a time, each complete before the next). -/

namespace Sys2Proof.Machine

/-- `be32(BUF[a], BUF[a+1], BUF[a+2], BUF[a+3])` (rule R63). -/
def windowWord (s : State) (a : Nat) : Word :=
  be32 (readByte s a) (readByte s (a + 1)) (readByte s (a + 2)) (readByte s (a + 3))

/-- `HostRead32(off)`, rule R66: a word, and no state changes. -/
def hostRead32 (off : Offset) (s : State) : Word :=
  match hostMap s.bufBytes off with
  | .cmd => 0
  | .status => status s
  | .err => s.err.setWidth 32
  | .errinfo => s.errinfo
  | .keylen => s.keylen
  | .src => s.src
  | .len => s.len
  | .key i => s.key[i]
  | .iv i => s.iv[i]
  | .h i => s.h[i]
  | .window a => windowWord s a
  | .nothing => 0

/-- `HostWrite32(off, v)`, rule R67: accepted whatever the value of `ERR` (rule R31); only a write to
`CMD` does more than store its value. -/
def hostWrite32 (off : Offset) (v : Word) (s : State) : Result :=
  match hostMap s.bufBytes off with
  | .cmd => takeCommand v s
  | .status => .next s
  | .err => .next s
  | .errinfo => .next s
  | .keylen => .next (s.setKeylen v)
  | .src => .next (s.setSrc v)
  | .len => .next (s.setLen v)
  | .key i => .next (s.setKeyWord i v)
  | .iv i => .next (s.setIvWord i v)
  | .h _ => .next s
  | .window a => .next (memWrite s a (bytesBe32 v))
  | .nothing => .next s

/-- One host event: a read gives the host a word, a write is performed, a hard reset resets; an access
that is not aligned is refused at the boundary, before either primitive (rule R65, U5; log entry 5). -/
def hostAccess (e : HostEvent) (s : State) : Result :=
  match e with
  | .read off =>
    if h : wfOffset off = true then .next (s.giveHost (hostRead32 ⟨off, h⟩ s))
    else .refused (.misalignedHostAccess off)
  | .write off v =>
    if h : wfOffset off = true then hostWrite32 ⟨off, h⟩ v s
    else .refused (.misalignedHostAccess off)
  | .hardReset => .next (hardReset s)

/-- What happens next: the host's first pending event, or, when the host does nothing, nothing (rules
R20, R270: the engine waits for host accesses). -/
def nextEvent (s : State) : Result :=
  match s.pending with
  | [] => .next s
  | e :: rest => hostAccess e (s.setPending rest)

/-- The host about to write the command word that the low `nbits` bits of `w` make, before everything
else it has to do; offset 0 is `CMD` (rule R26). DESIGN CHOICE (log entry 4): the spec has no command word
longer than 32 bits (rule R92), so for `nbits` above 32 it says nothing; here the write carries the low 32
bits of the value, as a host access has no more, although `decodeTableWord` answers `none` where the bits
above them are not all zero. -/
def presentCommand (s : State) (nbits w : Nat) : State :=
  s.setPending (.write 0x000 (BitVec.ofNat 32 (tableWord nbits w)) :: s.pending)

end Sys2Proof.Machine
end

