-- ==== Sys2Proof/Machine/Step.lean ====
section
/-! DEFINITION. One step of the machine, and how the host places the next command. -/

namespace Sys2Proof.Machine

/-- One step: the host's next event and the whole of its effect (`spec/30_encoding.md` rule R91,
`spec/20_memory.md` rule R75). -/
def step (s : State) : Host.Outcome State Fault Refusal := nextEvent s

/-- The state in which the very next step takes the given command word: the engine fetches no
instructions (`spec/10_state.md` rule R24), so the word is the host's next write to `CMD`
(log entry 4). -/
def State.withFetchWord (s : State) (nbits w : Nat) : State := presentCommand s nbits w

end Sys2Proof.Machine
end

