-- ==== Sys2Proof/Machine/HostNotation.lean ====
section
/-! DEFINITION. The host notation of `spec/30_encoding.md` rules R97 and R98: the lines a host program is
written in, and the pseudo-operations. It adds no engine state and no command. -/

namespace Sys2Proof.Machine

/-- The register names of `spec/10_state.md` rule R30. -/
inductive RegName where
  | cmd
  | status
  | err
  | errinfo
  | keylen
  | src
  | len
  | key (i : Fin 8)
  | iv (i : Fin 4)
  | h (i : Fin 8)
  deriving DecidableEq, Repr

/-- `off(<reg>)`, the offset of rule R30. -/
def regOffset : RegName → Offset
  | .cmd => ⟨0x000, rfl⟩
  | .status => ⟨0x004, rfl⟩
  | .err => ⟨0x008, rfl⟩
  | .errinfo => ⟨0x00C, rfl⟩
  | .keylen => ⟨0x010, rfl⟩
  | .src => ⟨0x014, rfl⟩
  | .len => ⟨0x018, rfl⟩
  | .key i => ⟨BitVec.ofNat 32 (0x020 + 4 * i.val), by revert i; decide⟩
  | .iv i => ⟨BitVec.ofNat 32 (0x040 + 4 * i.val), by revert i; decide⟩
  | .h i => ⟨BitVec.ofNat 32 (0x060 + 4 * i.val), by revert i; decide⟩

/-- `0x1000 + a`, the offset that a line writes for byte address `a` (rules R63, R97). DESIGN CHOICE (log
entry 16): where the sum reaches `2^32` it is cut to its low 32 bits; no well-formed line has such an
address. -/
def windowOffset (a : Nat) : Word := BitVec.ofNat 32 (0x1000 + a)

/-- The offset of the aligned window word that starts at byte address `4 k`. -/
def wordOffset (k : Nat) : Offset :=
  ⟨windowOffset (4 * k), by simp only [wfOffset, windowOffset, BitVec.toNat_ofNat, beq_iff_eq]; omega⟩

/-- One line of a host program, rule R97. -/
inductive HostLine where
  /-- `WR <reg>, <v>`. -/
  | wr (reg : RegName) (v : Word)
  /-- `RD <reg>`. -/
  | rd (reg : RegName)
  /-- `CMD <mnemonic>`. -/
  | cmd (i : Instr)
  /-- `CMDW <v>`. -/
  | cmdw (v : Word)
  /-- `WRBUF <a>, <v>`. -/
  | wrbuf (a : Nat) (v : Word)
  /-- `RDBUF <a>`. -/
  | rdbuf (a : Nat)
  deriving DecidableEq, Repr

/-- The registers a `WR` line may name (rule R97). -/
def RegName.writable : RegName → Bool
  | .keylen => true
  | .src => true
  | .len => true
  | .key _ => true
  | .iv _ => true
  | .cmd => false
  | .status => false
  | .err => false
  | .errinfo => false
  | .h _ => false

/-- The lines rule R97 allows: `WR` of a writable register, `WRBUF` and `RDBUF` of an address with
`a mod 4 = 0` whose offset `0x1000 + a` is below `2^32`, the range of an offset in rules R66 and R67. An
address at or past `BUF_BYTES` is allowed, as in rule R97: the access it stands for reads 0 or is ignored. -/
def HostLine.wf : HostLine → Bool
  | .wr reg _ => reg.writable
  | .rd _ => true
  | .cmd _ => true
  | .cmdw _ => true
  | .wrbuf a _ => a % 4 == 0 && decide (0x1000 + a < 2 ^ 32)
  | .rdbuf a => a % 4 == 0 && decide (0x1000 + a < 2 ^ 32)

/-- The access a line stands for, its "encoding" in rule R97. DESIGN CHOICE (log entry 16): an
ill-formed line is given one too. -/
def HostLine.event : HostLine → HostEvent
  | .wr reg v => .write (regOffset reg).val v
  | .rd reg => .read (regOffset reg).val
  | .cmd i => .write (regOffset .cmd).val (encode i)
  | .cmdw v => .write (regOffset .cmd).val v
  | .wrbuf a v => .write (windowOffset a) v
  | .rdbuf a => .read (windowOffset a)

/-- `RD <reg>` as the word it reads. -/
def readReg (reg : RegName) (s : State) : Word := hostRead32 (regOffset reg) s

/-- `RDBUF <4 k>` as the word it reads: the word of number `k`, since the address of an `RDBUF` is a multiple
of 4 (rules R65, R97). -/
def readBuf (k : Nat) (s : State) : Word := hostRead32 (wordOffset k) s

/-- The lines of a program in order (rule R75), stopping at a refusal. DESIGN CHOICE (log entry 10): each line
is performed as the host event it stands for, so an `RD` or `RDBUF` line adds the word it reads to the list
`reads`, which is the model's own. -/
def runLines : List HostLine → State → Result
  | [], s => .next s
  | l :: ls, s =>
    match hostAccess l.event s with
    | .next s' => runLines ls s'
    | .fault r => .fault r
    | .refused r => .refused r

/-! ### Pseudo-operations of rule R98 -/

/-- `SETKEY <n>, <b0 ... b(n-1)>` with `n` the number of bytes given: `KEYLEN`, then the key words, at
most 8, missing bytes of the last word as 0. For `n` in {16, 24, 32} this is rule R98's expansion; for
other lengths it is the first line of rule R223. -/
def setKeyLines (b : List Byte) : List HostLine :=
  .wr .keylen (BitVec.ofNat 32 b.length) ::
    (List.range (min 8 ((b.length + 3) / 4))).map fun i =>
      .wr (.key (Fin.ofNat 8 i)) (be32At b (4 * i))

/-- `SETIV <b0 ... b15>`. DESIGN CHOICE (log entry 16): of fewer than 16 bytes the missing ones are 0, of more
the first 16 are taken; rule R98 has `SETIV` of 16 bytes only. -/
def setIvLines (b : List Byte) : List HostLine :=
  (List.range 4).map fun i => .wr (.iv (Fin.ofNat 4 i)) (be32At b (4 * i))

/-- One byte of the word `LDBYTES` writes at `4 k`: the byte given for address `4 k + j`, or the byte that is
there. -/
def mergedByte (a : Nat) (b : List Byte) (k : Nat) (s : State) (j : Nat) : Byte :=
  if a ≤ 4 * k + j ∧ 4 * k + j < a + b.length then b.getD (4 * k + j - a) 0
  else (bytesBe32 (readBuf k s)).toList.getD j 0

/-- The word `LDBYTES` writes at `4 k` (read-modify-write where not all four bytes are given). -/
def mergedWord (a : Nat) (b : List Byte) (k : Nat) (s : State) : Word :=
  be32 (mergedByte a b k s 0) (mergedByte a b k s 1) (mergedByte a b k s 2) (mergedByte a b k s 3)

/-- The word writes of `LDBYTES`, `n` words from address `4 k`. -/
def loadWords (a : Nat) (b : List Byte) : (n k : Nat) → State → Result
  | 0, _, s => .next s
  | n + 1, k, s =>
    match hostAccess (HostLine.wrbuf (4 * k) (mergedWord a b k s)).event s with
    | .next s' => loadWords a b n (k + 1) s'
    | .fault r => .fault r
    | .refused r => .refused r

/-- `LDBYTES <a>, <b0 ... b(n-1)>`: makes `BUF[a+i] = b[i]` and leaves every other byte as it was; rule R98
defines it for `a + n <= BUF_BYTES`. DESIGN CHOICE (log entry 16): for `a + n > BUF_BYTES`, of which the rule
says nothing, the accesses of its expansion are made all the same, so the bytes inside `BUF` are written and
a word past it is ignored (rule R67). -/
def loadBytes (a : Nat) (b : List Byte) (s : State) : Result :=
  loadWords a b (if b.length = 0 then 0 else (a % 4 + b.length + 3) / 4) (a / 4) s

/-- `RDBYTES <a>, <n>`: the bytes `BUF[a .. a+n-1]`, by `RDBUF` of the aligned words that hold them. DESIGN
CHOICE (log entry 16): a byte past `BUF`, of which rule R98 says nothing, is read as the word past `BUF` is,
as 0 (rule R66). -/
def readBytes (a n : Nat) (s : State) : List Byte :=
  (List.range n).map fun i =>
    (bytesBe32 (readBuf ((a + i) / 4) s)).toList.getD ((a + i) % 4) 0

/-- The part of `KEYFROMH` from word `8 - n` on: read `H[i]`, write it to `KEY[i]`. -/
def copyHashWords : Nat → State → Result
  | 0, s => .next s
  | n + 1, s =>
    match hostAccess
        (HostLine.wr (.key (Fin.ofNat 8 (7 - n))) (readReg (.h (Fin.ofNat 8 (7 - n))) s)).event s with
    | .next s' => copyHashWords n s'
    | .fault r => .fault r
    | .refused r => .refused r

/-- `KEYFROMH`: `H[i]` to `KEY[i]` with no byte swap, then `KEYLEN` 32. -/
def keyFromH (s : State) : Result :=
  match copyHashWords 8 s with
  | .next s' => runLines [.wr .keylen 0x20] s'
  | .fault r => .fault r
  | .refused r => .refused r

end Sys2Proof.Machine
end

