-- ==== Sys2Proof/Machine/HostProc.lean ====
section
/-! DEFINITION. The host procedures of `spec/45_host_procedures.md`: software outside the engine that
drives it through host accesses. They add no engine state and no command (rule R5). -/

namespace Sys2Proof.Machine

/-- The typed errors of rule R231, returned by a procedure; none of them is the engine's latch. -/
inductive HostError where
  | unsupportedFileFormat
  | unsupportedEncryptionFormat
  | noMasterKeyPresent
  | invalidLength
  | invalidKeyLength
  | badPaddingOrKey
  deriving DecidableEq, Repr

/-- How a procedure ends. -/
inductive Proc (α : Type) where
  /-- It returns a value and leaves the engine in a state. -/
  | done (s : State) (a : α)
  /-- It fails with a typed error and leaves the engine in a state. -/
  | failed (s : State) (e : HostError)
  /-- The spec defines no result here (rules R220, R223, R229; U9, U10, U11). -/
  | noResult
  deriving DecidableEq, Repr

/-- The next part of a procedure after one that returned. -/
def Proc.andThen {α β : Type} (p : Proc α) (k : State → α → Proc β) : Proc β :=
  match p with
  | .done s a => k s a
  | .failed s e => .failed s e
  | .noResult => .noResult

/-- A sequence of accesses as a part of a procedure. -/
def Proc.ofResult : Result → Proc Unit
  | .next s => .done s ()
  | .fault _ => .noResult
  | .refused _ => .noResult

/-- Lines of host notation as a part of a procedure. -/
def procLines (ls : List HostLine) (s : State) : Proc Unit := .ofResult (runLines ls s)

/-- `LDBYTES` as a part of a procedure; it is defined only for `a + n <= BUF_BYTES` (rule R98). -/
def procLoad (a : Nat) (b : List Byte) (s : State) : Proc Unit :=
  if a + b.length ≤ s.bufBytes then .ofResult (loadBytes a b s) else .noResult

/-! ### The hash of a whole message -/

/-- The number of zero bytes of rule R220: the least `z` with `L + 1 + z` congruent to 56 modulo 64. -/
def padZeros (len : Nat) : Nat := (119 - len % 64) % 64

/-- A 64-bit value as eight bytes, the most significant first (rule R220). -/
def bytesBe64 (n : Nat) : List Byte := wordBytes [BitVec.ofNat 32 (n / 2 ^ 32), BitVec.ofNat 32 n]

/-- `Pad(M)` of rule R220; not defined for `2^61` bytes or more. -/
def pad (m : List Byte) : Option (List Byte) :=
  if m.length < 2 ^ 61 then
    some (m ++ 0x80 :: List.replicate (padZeros m.length) 0 ++ bytesBe64 (8 * m.length))
  else none

/-- The loop of rule R221: `n` blocks of 64 bytes through the engine. -/
def digestBlocks : Nat → List Byte → State → Proc Unit
  | 0, _, s => .done s ()
  | n + 1, p, s =>
    (procLoad 0 (p.take 64) s).andThen fun s _ =>
    (procLines [.wr .src 0, .cmd .shaBlock] s).andThen fun s _ =>
    digestBlocks n (p.drop 64) s

/-- The eight `RD Hi` of rule R221. -/
def readHash (s : State) : List Word := (List.range 8).map fun i => readReg (.h (Fin.ofNat 8 i)) s

/-- `digest(M)` on the engine, rule R221. -/
def digest (m : List Byte) (s : State) : Proc (List Byte) :=
  match pad m with
  | none => .noResult
  | some p =>
    (procLines [.cmd .shaInit] s).andThen fun s _ =>
    (digestBlocks (p.length / 64) p s).andThen fun s _ =>
    .done s (wordBytes (readHash s))

/-! ### SC's cipher operations -/

/-- `CMD CLEAR`, then the failure (rules R222, R223). -/
def clearAndFail {α : Type} (e : HostError) (s : State) : Proc α :=
  (procLines [.cmd .clear] s).andThen fun s _ => .failed s e

/-- `expandKey(key, len)` on the engine, rule R222. `WR KEYLEN` writes a word, so a key of `2^32` bytes or
more has no result (log entry 11). -/
def procExpandKey (key : List Byte) (s : State) : Proc Unit :=
  if 2 ^ 32 ≤ key.length then .noResult
  else
    (procLines (setKeyLines key ++ [.cmd .aesKeyexp]) s).andThen fun s _ =>
    if readReg .err s = 0x02 then clearAndFail .invalidKeyLength s else .done s ()

/-- `decryptBlock(ciphertext16, schedule)` on the engine with the block staged at `a`, rule R222; it
has no failure of its own, and no result for a block that is not 16 bytes. -/
def procDecryptBlock (a : Nat) (c : List Byte) (s : State) : Proc (List Byte) :=
  if c.length ≠ 16 then .noResult
  else
    (procLoad a c s).andThen fun s _ =>
    (procLines [.wr .src (BitVec.ofNat 32 a), .cmd .aesDecblk] s).andThen fun s _ =>
    .done s (readBytes a 16 s)

/-- The accesses of `decryptCbc` (rule R223) for a 16-byte IV. -/
def runDecryptCbc (buffer key iv : List Byte) (s : State) : Proc (List Byte) :=
  (procLines (setKeyLines key ++ setIvLines iv) s).andThen fun s _ =>
  (procLoad 0 buffer s).andThen fun s _ =>
  (procLines [.wr .src 0, .wr .len (BitVec.ofNat 32 buffer.length), .cmd .cbcDecrypt] s).andThen
    fun s _ =>
  if readReg .err s = 0x01 then clearAndFail .invalidLength s
  else if readReg .err s = 0x02 then clearAndFail .invalidKeyLength s
  else .done s (readBytes 0 buffer.length s)

/-- `decryptCbc(buffer, key, iv)`, rule R223: an IV that is not 16 bytes fails before the engine is
touched (`spec/90_conflicts.md` C5); a buffer longer than `BUF_BYTES` has no result (D29, U11), nor has a
key of `2^32` bytes or more (log entry 11). -/
def procDecryptCbc (buffer key iv : List Byte) (s : State) : Proc (List Byte) :=
  if iv.length ≠ 16 then .failed s .invalidLength
  else if s.bufBytes < buffer.length then .noResult
  else if 2 ^ 32 ≤ key.length then .noResult
  else runDecryptCbc buffer key iv s

/-! ### The padding codec -/

/-- `stripPadding(buffer)`, rule R224; `none` is the failure `BadPaddingOrKey`. -/
def stripPadding (buffer : List Byte) : Option (List Byte) :=
  match buffer.getLast? with
  | none => none
  | some n =>
    if n.toNat < 1 ∨ n.toNat > 16 then none
    else if n.toNat > buffer.length then none
    else if (buffer.drop (buffer.length - n.toNat)).all (· == n) then
      some (buffer.take (buffer.length - n.toNat))
    else none

/-! ### The file and its decoder -/

/-- The magic, rule R226. -/
def fileMagic : Word := 0x04030201

/-- The tag of a file without a master key, rule R226. -/
def tagNoMasterKey : Word := 0x01000000

/-- The tag of a file with a master key, rule R226. -/
def tagHasMasterKey : Word := 0x02000000

/-- The bytes `file[from .. from+n-1]`. -/
def slice (file : List Byte) (start n : Nat) : List Byte := (file.drop start).take n

/-- Steps 8 and 9 of rule R227. -/
def decryptBody (body cipherKey iv : List Byte) (s : State) : Proc (List Byte) :=
  (procDecryptCbc body cipherKey iv s).andThen fun s plain =>
  match stripPadding plain with
  | some out => .done s out
  | none => .failed s .badPaddingOrKey

/-- Steps 4 to 9 of rule R227, for a file whose header is whole. -/
def decryptWithTag (file passphrase : List Byte) (useMasterKey hasMaster : Bool) (s : State) :
    Proc (List Byte) :=
  (digest passphrase s).andThen fun s cipherKey =>
  let primaryIv := slice file 8 16
  let body := file.drop (if hasMaster then 72 else 24)
  if useMasterKey then
    if hasMaster then
      (procDecryptCbc (slice file 40 32) cipherKey (slice file 24 16) s).andThen fun s fileKey =>
      decryptBody body fileKey primaryIv s
    else .failed s .noMasterKeyPresent
  else decryptBody body cipherKey primaryIv s

/-- `decryptFile(fileBytes, passphraseBytes, useMasterKey)`, rule R227. A file of 1 to 23 bytes, and a
has-master-key file of 24 to 71 bytes, has no result (rule R229, U10). -/
def decryptFile (file passphrase : List Byte) (useMasterKey : Bool) (s : State) : Proc (List Byte) :=
  if file.length = 0 then .done s []
  else if file.length < 24 then .noResult
  else if be32At file 0 ≠ fileMagic then .failed s .unsupportedFileFormat
  else if be32At file 4 = tagNoMasterKey then decryptWithTag file passphrase useMasterKey false s
  else if be32At file 4 = tagHasMasterKey then
    if file.length < 72 then .noResult else decryptWithTag file passphrase useMasterKey true s
  else .failed s .unsupportedEncryptionFormat

end Sys2Proof.Machine
end

