-- ==== Sys2Proof/Safety.lean ====
section
/-! DEFINITION. What the claims call a good state and a safe run: the invariants of the engine's state and
runs in which every step answers a next state. -/

namespace Sys2Proof.Machine

/-- The buffer memory is in its canonical form, lists only addresses of `BUF`, and `BUF_BYTES` is legal
(`spec/00_scope.md` rule R7, `spec/10_state.md` rule R35). -/
def State.MemoryOk (s : State) : Prop :=
  s.buf.wf = true ∧ (∀ c ∈ s.buf, c.1 < s.bufBytes) ∧ Config.legalBufBytes s.bufBytes = true

/-- `ERR` holds a code of `spec/60_exceptions.md` rule R251 and `ERRINFO` is 0 when `ERR` is
(`spec/10_state.md` rules R28, R29). -/
def State.LatchOk (s : State) : Prop :=
  s.err.toNat ≤ 6 ∧ (s.err = 0 → s.errinfo = 0)

/-- `KS_VALID` says that `KS` holds the complete schedule of some key of `4 * KS_NK` bytes with `KS_NK`
4, 6 or 8, and otherwise `KS` and `KS_NK` are 0 (`spec/10_state.md` rules R21, R32). -/
def State.ScheduleOk (s : State) : Prop :=
  (s.ksValid = true →
    (s.ksNk = 4 ∨ s.ksNk = 6 ∨ s.ksNk = 8) ∧
    ∃ key : List Byte, key.length = 4 * s.ksNk.toNat ∧
      s.ks = scheduleStore (expandKey key s.ksNk.toNat)) ∧
  (s.ksValid = false → s.ksNk = 0 ∧ s.ks = Vector.replicate 60 0)

/-- `H_VALID` says that `H` descends from `HINIT` by compressions, and otherwise `H` is 0
(`spec/10_state.md` rule R21, decision D30). -/
def State.HashOk (s : State) : Prop :=
  (s.hValid = true → ∃ blocks : List (Vector Byte 64), s.h = blocks.foldl compress hInit) ∧
  (s.hValid = false → s.h = Vector.replicate 8 0)

/-- The invariant of the engine's state. -/
structure State.Inv (s : State) : Prop where
  memory : s.MemoryOk
  latch : s.LatchOk
  schedule : s.ScheduleOk
  hash : s.HashOk

/-- Every access the host will make is one its interface offers (`spec/20_memory.md` rule R65). -/
def State.HostOk (s : State) : Prop := ∀ e ∈ s.pending, e.wf = true

/-- A run of `n` steps in which every step answers a next state. -/
def SafeRun (n : Nat) (s : State) : Prop := ∃ t, Host.Core.run Sys2Proof.core n s = .next t

end Sys2Proof.Machine
end

