-- ==== Sys2Proof/Certificates/Slice0/Obligations.lean ====
section
/-! DEFINITION. The statements for the provers. Each docstring names the rule of `spec/` it formalises.
A statement about `step` speaks of the host's next access, which the model holds in `pending` (log entry 3). -/

open Sys2Proof Sys2Proof.Machine

/-! ### Encoding -/

/-- Rule R92: the decoder is the equality test with the command word, in both directions; the seven
command words; bits 31:8 of every one are zero. -/
def Obligations.DecodeIsEqualityWithCommandWord : Prop :=
  (∀ (v : Word) (i : Instr), decode v = .command i ↔ v = encode i) ∧
  encode .nop = 0x00000000 ∧ encode .clear = 0x00000001 ∧ encode .shaInit = 0x00000010 ∧
  encode .shaBlock = 0x00000011 ∧ encode .aesKeyexp = 0x00000020 ∧
  encode .aesDecblk = 0x00000021 ∧ encode .cbcDecrypt = 0x00000030 ∧
  (∀ i : Instr, (encode i).extractLsb' 8 24 = 0x000000)

/-- Rule R95, of the decoder: every word other than the seven command words is rejected by name, and so
are the words and opcode ranges the rule lists. -/
def Obligations.EveryOtherWordIsIllegal : Prop :=
  (∀ v : Word, (∀ i : Instr, v ≠ encode i) → decode v = .illegalCommand v) ∧
  (∀ v : Word,
    (0x100 ≤ v.toNat ∨ (0x02 ≤ v.toNat ∧ v.toNat ≤ 0x0F) ∨ (0x12 ≤ v.toNat ∧ v.toNat ≤ 0x1F) ∨
      (0x22 ≤ v.toNat ∧ v.toNat ≤ 0x2F) ∨ (0x31 ≤ v.toNat ∧ v.toNat ≤ 0xFF)) →
    decode v = .illegalCommand v)

/-- The seven words of the table of rule R92, written out, decode to their commands (sanity). -/
def Obligations.TableWordsDecode : Prop :=
  decodeTableWord 32 0b00000000000000000000000000000000 = some .nop ∧
  decodeTableWord 32 0b00000000000000000000000000000001 = some .clear ∧
  decodeTableWord 32 0b00000000000000000000000000010000 = some .shaInit ∧
  decodeTableWord 32 0b00000000000000000000000000010001 = some .shaBlock ∧
  decodeTableWord 32 0b00000000000000000000000000100000 = some .aesKeyexp ∧
  decodeTableWord 32 0b00000000000000000000000000100001 = some .aesDecblk ∧
  decodeTableWord 32 0b00000000000000000000000000110000 = some .cbcDecrypt

/-! ### One step -/

/-- A step is the host's next access (log entry 3), and runs the decoded command: when the host's next
event is a write to `CMD` of a word that decodes to the command `i`, the step is `exec i` at the state
without that event, and the word that `withFetchWord` places (log entry 4) is run at the state itself; any
other aligned write is `HostWrite32`, an aligned read only gives the host its word, a hard reset resets,
and with nothing to do the engine waits. -/
def Obligations.StepRunsDecodedCommand : Prop :=
  (∀ (s : State) (v : Word) (i : Instr) (rest : List HostEvent),
    s.pending = .write 0x000 v :: rest → decode v = .command i → i.wf = true →
    step s = exec i (s.setPending rest)) ∧
  (∀ (s : State) (w : Nat) (i : Instr),
    decodeTableWord 32 w = some i → step (s.withFetchWord 32 w) = exec i s) ∧
  (∀ (s : State) (off : Offset) (v : Word) (rest : List HostEvent),
    s.pending = .write off.val v :: rest →
    step s = hostWrite32 off v (s.setPending rest)) ∧
  (∀ (s : State) (off : Offset) (rest : List HostEvent),
    s.pending = .read off.val :: rest →
    step s = .next { s with pending := rest, reads := hostRead32 off s :: s.reads }) ∧
  (∀ (s : State) (rest : List HostEvent),
    s.pending = .hardReset :: rest → step s = .next (hardReset (s.setPending rest))) ∧
  (∀ s : State, s.pending = [] → step s = .next s)

/-- Rule R95: a word that is no command word, written to `CMD` with `ERR = 0`, raises `IllegalCommand` with
`ERRINFO` set to the word, and changes nothing else; every word with a nonzero bit in 31:8 and every opcode
the rule lists is such a word. -/
def Obligations.IllegalWordLatchesIllegalCommand : Prop :=
  (∀ (s : State) (v : Word), (∀ i : Instr, v ≠ encode i) → s.err = 0 →
    hostWrite32 ⟨0x000, rfl⟩ v s = .next { s with err := 0x03, errinfo := v }) ∧
  (∀ (v : Word) (i : Instr),
    (v.extractLsb' 8 24 ≠ 0 ∨ (0x02 ≤ v.toNat ∧ v.toNat ≤ 0x0F) ∨
      (0x12 ≤ v.toNat ∧ v.toNat ≤ 0x1F) ∨ (0x22 ≤ v.toNat ∧ v.toNat ≤ 0x2F) ∨
      (0x31 ≤ v.toNat ∧ v.toNat ≤ 0xFF)) → v ≠ encode i)

/-- Rule R93, whole: on `HostWrite32(0x000, v)`, with an error latched the word `0x00000001` performs
`CLEAR` and every other word is dropped, all state unchanged; with none latched a command word performs its
command and any other word raises `IllegalCommand`. -/
def Obligations.CommandWordIsTakenAsTheLatchAllows : Prop :=
  ∀ (s : State) (v : Word),
    (s.err ≠ 0 →
      hostWrite32 ⟨0x000, rfl⟩ v s = if v = 0x00000001 then exec .clear s else .next s) ∧
    (s.err = 0 → ∀ i : Instr, v = encode i → hostWrite32 ⟨0x000, rfl⟩ v s = exec i s) ∧
    (s.err = 0 → (∀ i : Instr, v ≠ encode i) →
      hostWrite32 ⟨0x000, rfl⟩ v s = .next { s with err := 0x03, errinfo := v })

/-- Rule R28: `ERR` never changes from one nonzero code to another and never returns to 0 except by hard
reset or `CLEAR`; `ERRINFO` keeps the first error's value as long (rule R255). -/
def Obligations.FirstErrorStaysLatched : Prop :=
  ∀ s t : State, s.err ≠ 0 → step s = .next t →
    (t.err = s.err ∧ t.errinfo = s.errinfo) ∨
    (t.err = 0 ∧ t.errinfo = 0 ∧
      ∃ rest, s.pending = .hardReset :: rest ∨ s.pending = .write 0x000 0x00000001 :: rest)

/-- Rule R254: a command that raises an error has written nothing but `ERR` and `ERRINFO`. -/
def Obligations.FailedCommandWritesOnlyTheLatch : Prop :=
  ∀ (s t : State) (i : Instr), s.err = 0 → exec i s = .next t → t.err ≠ 0 →
    t = { s with err := t.err, errinfo := t.errinfo }

/-- The table of rule R252, read as "no other command raises it": which error a command can raise. -/
def Obligations.CommandsRaiseOnlyTheirErrors : Prop :=
  ∀ (s t : State) (i : Instr), s.err = 0 → exec i s = .next t → t.err ≠ 0 →
    (i = .shaBlock ∧ (t.err = 0x04 ∨ t.err = 0x05)) ∨
    (i = .aesKeyexp ∧ t.err = 0x02) ∨
    (i = .aesDecblk ∧ (t.err = 0x04 ∨ t.err = 0x06)) ∨
    (i = .cbcDecrypt ∧ (t.err = 0x01 ∨ t.err = 0x02 ∨ t.err = 0x04))

/-- Rule R258: with several causes for one command word, the one reported is fixed by the order of the
tests: the latch, decoding, then the command's own checks (with the code and the value of rule R251). -/
def Obligations.ChecksAreMadeInOrder : Prop :=
  (∀ (s : State) (v : Word), s.err ≠ 0 → v ≠ 0x00000001 → hostWrite32 ⟨0x000, rfl⟩ v s = .next s) ∧
  (∀ (s : State) (v : Word), s.err = 0 → (∀ i : Instr, v ≠ encode i) →
    hostWrite32 ⟨0x000, rfl⟩ v s = .next { s with err := 0x03, errinfo := v }) ∧
  (∀ s : State, s.err = 0 → s.hValid = false →
    exec .shaBlock s = .next { s with err := 0x05, errinfo := 0 }) ∧
  (∀ s : State, s.err = 0 → s.hValid = true → s.bufBytes < s.src.toNat + 64 →
    exec .shaBlock s = .next { s with err := 0x04, errinfo := s.src }) ∧
  (∀ s : State, s.err = 0 → s.keylen ≠ 16 → s.keylen ≠ 24 → s.keylen ≠ 32 →
    exec .aesKeyexp s = .next { s with err := 0x02, errinfo := s.keylen }) ∧
  (∀ s : State, s.err = 0 → s.ksValid = false →
    exec .aesDecblk s = .next { s with err := 0x06, errinfo := 0 }) ∧
  (∀ s : State, s.err = 0 → s.ksValid = true → s.bufBytes < s.src.toNat + 16 →
    exec .aesDecblk s = .next { s with err := 0x04, errinfo := s.src }) ∧
  (∀ s : State, s.err = 0 → s.len.toNat % 16 ≠ 0 →
    exec .cbcDecrypt s = .next { s with err := 0x01, errinfo := s.len }) ∧
  (∀ s : State, s.err = 0 → s.len.toNat % 16 = 0 →
    s.keylen ≠ 16 → s.keylen ≠ 24 → s.keylen ≠ 32 →
    exec .cbcDecrypt s = .next { s with err := 0x02, errinfo := s.keylen }) ∧
  (∀ s : State, s.err = 0 → s.len.toNat % 16 = 0 →
    (s.keylen = 16 ∨ s.keylen = 24 ∨ s.keylen = 32) → s.bufBytes < s.src.toNat + s.len.toNat →
    exec .cbcDecrypt s = .next { s with err := 0x04, errinfo := s.src })

/-! ### The system commands and SHA_INIT -/

/-- Rule R205: `NOP`, the all-zero word, completes in every state and changes nothing, whether it is taken
or, with an error latched, dropped. -/
def Obligations.NopChangesNothing : Prop :=
  encode .nop = 0x00000000 ∧ (∀ s : State, exec .nop s = .next s) ∧
  (∀ s : State, hostWrite32 ⟨0x000, rfl⟩ 0x00000000 s = .next s)

/-- Rule R206: `CLEAR` completes whether or not an error is latched, and gives every register and flag its
reset value; `BUF`, and everything outside the engine, is as before; issued twice it has the effect of
once; after it `STATUS` reads 0. -/
def Obligations.ClearZeroesAllButBuf : Prop :=
  encode .clear = 0x00000001 ∧
  ∀ s : State, ∃ t : State, exec .clear s = .next t ∧
    t = { s with
          err := 0, errinfo := 0, keylen := 0, src := 0, len := 0
          key := Vector.replicate 8 0, iv := Vector.replicate 4 0
          h := Vector.replicate 8 0, hValid := false
          ks := Vector.replicate 60 0, ksNk := 0, ksValid := false } ∧
    t = { State.reset with
          buf := s.buf, bufBytes := s.bufBytes, resets := s.resets
          pending := s.pending, reads := s.reads } ∧
    exec .clear t = .next t ∧ hostRead32 ⟨0x004, rfl⟩ t = 0x00000000

/-- Rule R281: hard reset and `CLEAR` set the same registers and flags to the same values and differ in
`BUF`, which `CLEAR` leaves unchanged and hard reset leaves unspecified (the free value of log entry 2,
whatever it is). -/
def Obligations.HardResetAgreesWithClearButForBuf : Prop :=
  ∀ (s : State) (rest : List HostEvent), s.pending = .hardReset :: rest →
    ∃ t u : State, step s = .next t ∧ exec .clear (s.setPending rest) = .next u ∧
      t = { u with buf := t.buf, resets := t.resets } ∧
      (∀ a, readByte u a = readByte s a) ∧
      (∀ a, readByte t a = Config.freeBufByte (s.resets + 1) a)

/-- Rules R110 and R112: `SHA_INIT` with no error latched loads `HINIT` and sets `H_VALID`, and writes
nothing else; issued twice it has the effect of once. -/
def Obligations.ShaInitLoadsInitialWords : Prop :=
  encode .shaInit = 0x00000010 ∧
  ∀ s : State, s.err = 0 → ∃ t : State, exec .shaInit s = .next t ∧
    t = { s with
          h := #v[0x6a09e667, 0xbb67ae85, 0x3c6ef372, 0xa54ff53a,
                  0x510e527f, 0x9b05688c, 0x1f83d9ab, 0x5be0cd19]
          hValid := true } ∧
    exec .shaInit t = .next t ∧
    hostRead32 ⟨0x060, rfl⟩ t = 0x6a09e667 ∧ (hostRead32 ⟨0x004, rfl⟩ t).getLsbD 2 = true

/-! ### SHA_BLOCK -/

/-- Rules R111, R113 to R115 and R117 to R121: the table `K`, row `n` holding `K[8n .. 8n+7]`, and the six
functions on words as the rules write them out; and with no error latched, `H_VALID = 1` and the block in
range, `SHA_BLOCK` completes and adds to `H` the working variables after 64 rounds, where the schedule words
and the rounds are those of the rules, from the bytes of `BUF` at `SRC`; nothing but `H` is written. What these rules mark as general
knowledge is followed as the rules state it (log entry 8). -/
def Obligations.ShaBlockRunsTheSixtyFourRounds : Prop :=
  (let row (n : Nat) := (roundConstants.drop (8 * n)).take 8
   roundConstants.length = 64 ∧
   row 0 = [0x428a2f98, 0x71374491, 0xb5c0fbcf, 0xe9b5dba5, 0x3956c25b, 0x59f111f1, 0x923f82a4, 0xab1c5ed5] ∧
   row 1 = [0xd807aa98, 0x12835b01, 0x243185be, 0x550c7dc3, 0x72be5d74, 0x80deb1fe, 0x9bdc06a7, 0xc19bf174] ∧
   row 2 = [0xe49b69c1, 0xefbe4786, 0x0fc19dc6, 0x240ca1cc, 0x2de92c6f, 0x4a7484aa, 0x5cb0a9dc, 0x76f988da] ∧
   row 3 = [0x983e5152, 0xa831c66d, 0xb00327c8, 0xbf597fc7, 0xc6e00bf3, 0xd5a79147, 0x06ca6351, 0x14292967] ∧
   row 4 = [0x27b70a85, 0x2e1b2138, 0x4d2c6dfc, 0x53380d13, 0x650a7354, 0x766a0abb, 0x81c2c92e, 0x92722c85] ∧
   row 5 = [0xa2bfe8a1, 0xa81a664b, 0xc24b8b70, 0xc76c51a3, 0xd192e819, 0xd6990624, 0xf40e3585, 0x106aa070] ∧
   row 6 = [0x19a4c116, 0x1e376c08, 0x2748774c, 0x34b0bcb5, 0x391c0cb3, 0x4ed8aa4a, 0x5b9cca4f, 0x682e6ff3] ∧
   row 7 = [0x748f82ee, 0x78a5636f, 0x84c87814, 0x8cc70208, 0x90befffa, 0xa4506ceb, 0xbef9a3f7, 0xc67178f2]) ∧
  (∀ x : Word,
    smallSigma0 x = rotr32 x 7 ^^^ rotr32 x 18 ^^^ shr32 x 3 ∧
    smallSigma1 x = rotr32 x 17 ^^^ rotr32 x 19 ^^^ shr32 x 10 ∧
    bigSigma0 x = rotr32 x 2 ^^^ rotr32 x 13 ^^^ rotr32 x 22 ∧
    bigSigma1 x = rotr32 x 6 ^^^ rotr32 x 11 ^^^ rotr32 x 25) ∧
  (∀ x y z : Word,
    choice x y z = (x &&& y) ^^^ (~~~x &&& z) ∧
    majority x y z = (x &&& y) ^^^ (x &&& z) ^^^ (y &&& z)) ∧
  ∀ s : State, s.err = 0 → s.hValid = true → s.src.toNat + 64 ≤ s.bufBytes →
    ∃ (W : Nat → Word) (v : Nat → Working),
      (∀ t, t < 16 → W t =
        be32 (readByte s (s.src.toNat + 4 * t)) (readByte s (s.src.toNat + 4 * t + 1))
          (readByte s (s.src.toNat + 4 * t + 2)) (readByte s (s.src.toNat + 4 * t + 3))) ∧
      (∀ t, 16 ≤ t → t < 64 → W t =
        smallSigma1 (W (t - 2)) + W (t - 7) + smallSigma0 (W (t - 15)) + W (t - 16)) ∧
      v 0 = ⟨s.h[0], s.h[1], s.h[2], s.h[3], s.h[4], s.h[5], s.h[6], s.h[7]⟩ ∧
      (∀ t, t < 64 →
        let T1 := (v t).h + bigSigma1 (v t).e + choice (v t).e (v t).f (v t).g +
          roundConstants.getD t 0 + W t
        let T2 := bigSigma0 (v t).a + majority (v t).a (v t).b (v t).c
        v (t + 1) = ⟨T1 + T2, (v t).a, (v t).b, (v t).c, (v t).d + T1, (v t).e, (v t).f, (v t).g⟩) ∧
      exec .shaBlock s = .next
        { s with
          h := #v[s.h[0] + (v 64).a, s.h[1] + (v 64).b, s.h[2] + (v 64).c, s.h[3] + (v 64).d,
                  s.h[4] + (v 64).e, s.h[5] + (v 64).f, s.h[6] + (v 64).g, s.h[7] + (v 64).h] }

/-- Rule R123: `Compress` is what `SHA_BLOCK` computes, `H <- Compress(H, MemRead(SRC, 64))`, so two runs on
one block chain, the second starting from the first run's `H`. -/
def Obligations.ShaBlockChainsCompress : Prop :=
  ∀ s : State, s.err = 0 → s.hValid = true → s.src.toNat + 64 ≤ s.bufBytes →
    let B := memRead s s.src.toNat 64
    ∃ t : State, exec .shaBlock s = .next t ∧ t = { s with h := compress s.h B } ∧
      exec .shaBlock t = .next { s with h := compress (compress s.h B) B }

/-! ### GF(2^8) and the S-box pair -/

/-- Rule R140: `gmul` is commutative and associative, distributes over exclusive-or, has 1 as unit and 0 as
zero, and multiplies by 2 by the doubling step with its reduction (which together settle it on all bytes). -/
def Obligations.GmulIsFieldMultiplication : Prop :=
  (∀ a b : Byte, gmul a b = gmul b a) ∧
  (∀ a b c : Byte, gmul (gmul a b) c = gmul a (gmul b c)) ∧
  (∀ a b c : Byte, gmul a (b ^^^ c) = gmul a b ^^^ gmul a c) ∧
  (∀ a : Byte, gmul a 1 = a) ∧ (∀ a : Byte, gmul a 0 = 0) ∧
  (∀ a : Byte, gmul a 2 =
    BitVec.ofNat 8 (a.toNat * 2 % 256) ^^^ (if a.getLsbD 7 then 0x1B else 0))

/-- Rule R141: for `a != 0`, `ginv(a)` is the one byte `x` with `gmul(a, x) = 1`. -/
def Obligations.GinvIsTheUniqueInverse : Prop :=
  ginv 0 = 0 ∧ ∀ a x : Byte, a ≠ 0 → (gmul a x = 1 ↔ x = ginv a)

/-- Rules R142 and R143: the listed tables are the affine transform of the inverse, with no fixed point,
and its inverse permutation. -/
def Obligations.SboxPairFollowsItsFormula : Prop :=
  (∀ x : Byte, sbox x =
    ginv x ^^^ rotl8 (ginv x) 1 ^^^ rotl8 (ginv x) 2 ^^^ rotl8 (ginv x) 3 ^^^ rotl8 (ginv x) 4 ^^^
      0x63) ∧
  (∀ x : Byte, sbox x ≠ x) ∧
  (∀ x : Byte, invSbox (sbox x) = x) ∧ (∀ y : Byte, sbox (invSbox y) = y)

/-! ### AES_KEYEXP -/

/-- Rules R145 to R147: `RotWord`, `SubWord` and `RconWord` on the four bytes of a word; with no error
latched and a legal key length, `AES_KEYEXP` completes; the first `Nk` schedule words are the key words,
each further word follows the recurrence, the words above the schedule are 0, `KS_NK` and `KS_VALID` are
set, and nothing else is written; running it twice gives the same schedule. With any other key length it
raises `InvalidKeyLength` and writes nothing else. What these rules mark as general knowledge is followed
as the rules state it (log entry 8). -/
def Obligations.KeyExpansionFollowsTheRecurrence : Prop :=
  encode .aesKeyexp = 0x00000020 ∧
  (∀ b0 b1 b2 b3 : Byte,
    rotWord (be32 b0 b1 b2 b3) = be32 b1 b2 b3 b0 ∧
    subWord (be32 b0 b1 b2 b3) = be32 (sbox b0) (sbox b1) (sbox b2) (sbox b3)) ∧
  (∀ w : Word, rotWord w = rotl32 w 8) ∧
  (∀ j : Nat, (rconWord j).toNat = (rcon j).toNat * 2 ^ 24) ∧
  (∀ s : State, s.err = 0 → s.keylen ≠ 16 → s.keylen ≠ 24 → s.keylen ≠ 32 →
    exec .aesKeyexp s = .next { s with err := 0x02, errinfo := s.keylen }) ∧
  ∀ (s : State) (nk : Nat), s.err = 0 → (nk = 4 ∨ nk = 6 ∨ nk = 8) → s.keylen.toNat = 4 * nk →
    ∃ t : State, exec .aesKeyexp s = .next t ∧
      t = { s with ks := t.ks, ksNk := BitVec.ofNat 4 nk, ksValid := true } ∧
      (∀ i, i < nk → t.ks.toList.getD i 0 = s.key.toList.getD i 0) ∧
      (∀ i, nk ≤ i → i < 4 * (nk + 7) →
        t.ks.toList.getD i 0 = t.ks.toList.getD (i - nk) 0 ^^^
          (if i % nk = 0 then subWord (rotWord (t.ks.toList.getD (i - 1) 0)) ^^^ rconWord (i / nk)
           else if nk > 6 ∧ i % nk = 4 then subWord (t.ks.toList.getD (i - 1) 0)
           else t.ks.toList.getD (i - 1) 0)) ∧
      (∀ i, 4 * (nk + 7) ≤ i → i < 60 → t.ks.toList.getD i 0 = 0) ∧
      exec .aesKeyexp t = .next t

/-- Rule R147, corner case: the key words `KEY[Nk .. 7]` are ignored, whatever they hold. -/
def Obligations.KeyWordsAboveNkAreIgnored : Prop :=
  ∀ (s t : State) (key : Vector Word 8), s.err = 0 → s.keylen.toNat ≤ 32 →
    (∀ i : Fin 8, i.val < s.keylen.toNat / 4 → key[i] = s.key[i]) →
    exec .aesKeyexp s = .next t →
    exec .aesKeyexp { s with key := key } = .next { t with key := key }

/-- Rule R144: `rcon` starts at 1 and is doubled in GF(2^8) each time; the values used, `rcon(1 .. 10)`. -/
def Obligations.RoundConstantsAreTheListedTen : Prop :=
  rcon 1 = 0x01 ∧ (∀ j, 1 ≤ j → rcon (j + 1) = gmul (rcon j) 0x02) ∧
  (List.range 10).map (fun j => rcon (j + 1)) =
    [0x01, 0x02, 0x04, 0x08, 0x10, 0x20, 0x40, 0x80, 0x1b, 0x36]

/-! ### AES_DECBLK -/

/-- Rule R172: `AddRoundKey`, for a round number in `0 .. 14` (the largest `Nr`), is the exclusive-or with
the 16 bytes `bytes_be32(KS[4r]), ..., bytes_be32(KS[4r+3])`, and its own inverse. -/
def Obligations.AddRoundKeyXorsFourWords : Prop :=
  ∀ (ks : Vector Word 60) (r : Fin 15) (S : Block),
    (∀ c i : Fin 4,
      (addRoundKey ks r S)[4 * c.val + i.val]'(by omega) =
        S[4 * c.val + i.val]'(by omega) ^^^
          (bytesBe32 (ks[4 * r.val + c.val]'(by omega)))[i.val]) ∧
    addRoundKey ks r (addRoundKey ks r S) = S

/-- Rule R173: `InvShiftSub` moves byte `p[n]` to byte `n` through the inverse S-box, with the permutation
`p` the rule lists, every output byte from the state as it was before. -/
def Obligations.InvShiftSubPermutesAndSubstitutes : Prop :=
  ∀ (S : Block) (n : Fin 16),
    (invShiftSub S)[n] =
      invSbox (S.toList.getD ([0, 13, 10, 7, 4, 1, 14, 11, 8, 5, 2, 15, 12, 9, 6, 3].getD n.val 0) 0)

/-- Rule R174: the four bytes of each column as the rule writes them out, and linearity over
exclusive-or. -/
def Obligations.InvMixColumnsMatrixAndLinearity : Prop :=
  (∀ (S : Block) (c : Nat) (hc : c < 4),
    let a0 := S[4 * c]
    let a1 := S[4 * c + 1]
    let a2 := S[4 * c + 2]
    let a3 := S[4 * c + 3]
    (invMixColumns S)[4 * c] = gmul 0x0E a0 ^^^ gmul 0x0B a1 ^^^ gmul 0x0D a2 ^^^ gmul 0x09 a3 ∧
    (invMixColumns S)[4 * c + 1] = gmul 0x09 a0 ^^^ gmul 0x0E a1 ^^^ gmul 0x0B a2 ^^^ gmul 0x0D a3 ∧
    (invMixColumns S)[4 * c + 2] = gmul 0x0D a0 ^^^ gmul 0x09 a1 ^^^ gmul 0x0E a2 ^^^ gmul 0x0B a3 ∧
    (invMixColumns S)[4 * c + 3] = gmul 0x0B a0 ^^^ gmul 0x0D a1 ^^^ gmul 0x09 a2 ^^^ gmul 0x0E a3) ∧
  (∀ X Y : Block,
    invMixColumns (xorBlock X Y) = xorBlock (invMixColumns X) (invMixColumns Y))

/-- Rule R176: `DecryptBlock` is a bijection on 16-byte blocks for a fixed schedule. -/
def Obligations.DecryptBlockIsABijection : Prop :=
  ∀ (ks : Vector Word 60) (nk : Nat), (nk = 4 ∨ nk = 6 ∨ nk = 8) →
    Function.Bijective (decryptBlock ks nk)

/-- Rules R176 and R177: with no error latched, a valid schedule and the block in range, `AES_DECBLK`
completes; the 16 bytes at `SRC` become the block after the steps of rule R176, every other byte of `BUF`
and everything else is as before. -/
def Obligations.AesDecblkDecryptsInPlace : Prop :=
  ∀ s : State, s.err = 0 → s.ksValid = true → s.src.toNat + 16 ≤ s.bufBytes →
    ∃ (S : Nat → Block) (t : State),
      S (s.ksNk.toNat + 5) =
        addRoundKey s.ks (s.ksNk.toNat + 6) (memRead s s.src.toNat 16) ∧
      (∀ r, r < s.ksNk.toNat + 5 →
        S r = invMixColumns (addRoundKey s.ks (r + 1) (invShiftSub (S (r + 1))))) ∧
      exec .aesDecblk s = .next t ∧
      t = { s with buf := t.buf } ∧
      (∀ n : Fin 16, readByte t (s.src.toNat + n.val) =
        (addRoundKey s.ks 0 (invShiftSub (S 0)))[n]) ∧
      (∀ a, a < s.src.toNat ∨ s.src.toNat + 16 ≤ a → readByte t a = readByte s a)

/-! ### CBC_DECRYPT -/

/-- Rules R190 to R192: with no error latched, a legal `LEN`, a legal key length and the range in `BUF`,
`CBC_DECRYPT` completes; it writes `KS`, `KS_NK` and `KS_VALID` exactly as `AES_KEYEXP` does, each
plaintext block is `DecryptBlock(C_j) ^ C_(j-1)` of the ciphertext as it was before the command (the IV
for `j = 0`), and every other byte of `BUF` and everything else is as before. -/
def Obligations.CbcDecryptComputesTheChain : Prop :=
  ∀ s : State, s.err = 0 → s.len.toNat % 16 = 0 →
    (s.keylen = 16 ∨ s.keylen = 24 ∨ s.keylen = 32) → s.src.toNat + s.len.toNat ≤ s.bufBytes →
    ∃ t u : State, exec .cbcDecrypt s = .next t ∧ exec .aesKeyexp s = .next u ∧
      t = { s with ks := u.ks, ksNk := u.ksNk, ksValid := true, buf := t.buf } ∧
      (∀ (j : Nat) (n : Fin 16), j < s.len.toNat / 16 →
        readByte t (s.src.toNat + 16 * j + n.val) =
          (decryptBlock u.ks (s.keylen.toNat / 4) (memRead s (s.src.toNat + 16 * j) 16))[n] ^^^
          (if j = 0 then (ivBytes s)[n] else readByte s (s.src.toNat + 16 * (j - 1) + n.val))) ∧
      (∀ a, a < s.src.toNat ∨ s.src.toNat + s.len.toNat ≤ a → readByte t a = readByte s a)

/-- Rule R194: a chain may be decrypted in two pieces, the last ciphertext block of the first written into
`IV` before the second; the buffer and the schedule are those of one command over the whole. -/
def Obligations.CbcDecryptInTwoPieces : Prop :=
  ∀ (s : State) (m k : Nat), s.err = 0 → 0 < m → 16 * (m + k) < 2 ^ 32 →
    (s.keylen = 16 ∨ s.keylen = 24 ∨ s.keylen = 32) →
    s.src.toNat + 16 * (m + k) ≤ s.bufBytes → s.bufBytes ≤ 2 ^ 31 →
    ∃ whole first second : State,
      exec .cbcDecrypt { s with len := BitVec.ofNat 32 (16 * (m + k)) } = .next whole ∧
      exec .cbcDecrypt { s with len := BitVec.ofNat 32 (16 * m) } = .next first ∧
      exec .cbcDecrypt
        { first with
          src := s.src + BitVec.ofNat 32 (16 * m)
          len := BitVec.ofNat 32 (16 * k)
          iv := Vector.ofFn fun i : Fin 4 =>
            windowWord s (s.src.toNat + 16 * (m - 1) + 4 * i.val) } = .next second ∧
      (∀ a, readByte second a = readByte whole a) ∧
      second.ks = whole.ks ∧ second.ksNk = whole.ksNk ∧ second.ksValid = whole.ksValid

/-- Rule R78: `CBC_DECRYPT` expands from the present `KEY` and `KEYLEN` every time, so a schedule left by
an earlier command has no influence on its result. -/
def Obligations.CbcDecryptIgnoresTheOldSchedule : Prop :=
  ∀ (s t : State) (ks : Vector Word 60) (nk : BitVec 4) (valid : Bool), s.err = 0 →
    exec .cbcDecrypt s = .next t → t.err = 0 →
    exec .cbcDecrypt { s with ks := ks, ksNk := nk, ksValid := valid } = .next t

/-- Rules R147, R177, R190: one block under a zero IV is `AES_KEYEXP` and then `AES_DECBLK`. -/
def Obligations.CbcOfOneBlockUnderZeroIv : Prop :=
  ∀ s u : State, s.err = 0 → s.len = 16 → s.iv = Vector.replicate 4 0 →
    s.src.toNat + 16 ≤ s.bufBytes → exec .aesKeyexp s = .next u → u.err = 0 →
    exec .cbcDecrypt s = exec .aesDecblk u

/-! ### What each command writes and reads -/

/-- Rule R94, the column "writes", with rule R61: what a command leaves unchanged when it answers a next
state. Every command may also write `ERR` and `ERRINFO`. Bytes of `BUF` outside the range a command
writes read as before. -/
def Obligations.CommandsWriteOnlyTheirState : Prop :=
  ∀ s t : State,
    (exec .nop s = .next t → t = s) ∧
    (exec .clear s = .next t →
      t.buf = s.buf ∧ t.bufBytes = s.bufBytes ∧ t.resets = s.resets ∧ t.pending = s.pending ∧
      t.reads = s.reads) ∧
    (exec .shaInit s = .next t → t = { s with h := t.h, hValid := t.hValid }) ∧
    (exec .shaBlock s = .next t → t = { s with h := t.h, err := t.err, errinfo := t.errinfo }) ∧
    (exec .aesKeyexp s = .next t →
      t = { s with ks := t.ks, ksNk := t.ksNk, ksValid := t.ksValid, err := t.err,
                   errinfo := t.errinfo }) ∧
    (exec .aesDecblk s = .next t →
      t = { s with buf := t.buf, err := t.err, errinfo := t.errinfo } ∧
      ∀ a, a < s.src.toNat ∨ s.src.toNat + 16 ≤ a → readByte t a = readByte s a) ∧
    (exec .cbcDecrypt s = .next t →
      t = { s with ks := t.ks, ksNk := t.ksNk, ksValid := t.ksValid, buf := t.buf, err := t.err,
                   errinfo := t.errinfo } ∧
      ∀ a, a < s.src.toNat ∨ s.src.toNat + s.len.toNat ≤ a → readByte t a = readByte s a)

/-- Rule R22: `H` is written only by `SHA_INIT` and `SHA_BLOCK` (and by `CLEAR` and hard reset, which
zero it): a step that changes it takes one of these. -/
def Obligations.OnlyShaCommandsAndResetsWriteHash : Prop :=
  ∀ s t : State, step s = .next t → t.h ≠ s.h ∨ t.hValid ≠ s.hValid →
    ∃ rest, s.pending = .hardReset :: rest ∨ s.pending = .write 0x000 (encode .clear) :: rest ∨
      s.pending = .write 0x000 (encode .shaInit) :: rest ∨
      s.pending = .write 0x000 (encode .shaBlock) :: rest

/-- Rule R32: `KS` is written only by a key expansion, `CLEAR` and hard reset; in particular a host write
to `KEY` or `KEYLEN` does not change `KS`, `KS_NK` or `KS_VALID`. -/
def Obligations.OnlyKeyExpansionsAndResetsWriteSchedule : Prop :=
  ∀ s t : State, step s = .next t →
    t.ks ≠ s.ks ∨ t.ksNk ≠ s.ksNk ∨ t.ksValid ≠ s.ksValid →
    ∃ rest, s.pending = .hardReset :: rest ∨ s.pending = .write 0x000 (encode .clear) :: rest ∨
      s.pending = .write 0x000 (encode .aesKeyexp) :: rest ∨
      s.pending = .write 0x000 (encode .cbcDecrypt) :: rest

/-- Rule R32: `KS` is read only by the block decryption. Two states that differ only in the words of `KS`
answer a step alike but for those words, unless the step takes `AES_DECBLK`. -/
def Obligations.ScheduleWordsAreSeenOnlyByAesDecblk : Prop :=
  ∀ (s t : State) (ks : Vector Word 60),
    (∀ rest, s.pending ≠ .write 0x000 (encode .aesDecblk) :: rest) → step s = .next t →
    ∃ u : State, step { s with ks := ks } = .next u ∧ u = { t with ks := u.ks }

/-! ### Host accesses -/

/-- Rule R66: what a read of each offset returns. That a read changes no state is in the type of
`hostRead32`, and in `StepRunsDecodedCommand` for the step. -/
def Obligations.HostReadReturnsTheMappedWord : Prop :=
  ∀ (s : State) (off : Offset),
    (off.val.toNat = 0x004 → hostRead32 off s = status s) ∧
    (off.val.toNat = 0x008 → hostRead32 off s = s.err.setWidth 32) ∧
    (off.val.toNat = 0x00C → hostRead32 off s = s.errinfo) ∧
    (off.val.toNat = 0x010 → hostRead32 off s = s.keylen) ∧
    (off.val.toNat = 0x014 → hostRead32 off s = s.src) ∧
    (off.val.toNat = 0x018 → hostRead32 off s = s.len) ∧
    (∀ i : Fin 8, off.val.toNat = 0x020 + 4 * i.val → hostRead32 off s = s.key[i]) ∧
    (∀ i : Fin 4, off.val.toNat = 0x040 + 4 * i.val → hostRead32 off s = s.iv[i]) ∧
    (∀ i : Fin 8, off.val.toNat = 0x060 + 4 * i.val → hostRead32 off s = s.h[i]) ∧
    (∀ a : Nat, a < s.bufBytes → off.val.toNat = 0x1000 + a →
      hostRead32 off s =
        be32 (readByte s a) (readByte s (a + 1)) (readByte s (a + 2)) (readByte s (a + 3))) ∧
    ((off.val.toNat = 0x000 ∨ off.val.toNat = 0x01C ∨ (0x050 ≤ off.val.toNat ∧ off.val.toNat < 0x060) ∨
        (0x080 ≤ off.val.toNat ∧ off.val.toNat < 0x1000) ∨ 0x1000 + s.bufBytes ≤ off.val.toNat) →
      hostRead32 off s = 0)

/-- Rule R67: what a write to each offset does, and nothing else: `CMD` takes the word, a writable register
stores it, the buffer window stores its four bytes most significant first, every other offset ignores it.
The value of `ERR` plays no part. -/
def Obligations.HostWriteStoresAtTheMappedPlace : Prop :=
  ∀ (s : State) (off : Offset) (v : Word),
    (off.val.toNat = 0x000 → hostWrite32 off v s = takeCommand v s) ∧
    (off.val.toNat = 0x010 → hostWrite32 off v s = .next { s with keylen := v }) ∧
    (off.val.toNat = 0x014 → hostWrite32 off v s = .next { s with src := v }) ∧
    (off.val.toNat = 0x018 → hostWrite32 off v s = .next { s with len := v }) ∧
    (∀ i : Fin 8, off.val.toNat = 0x020 + 4 * i.val →
      hostWrite32 off v s = .next { s with key := s.key.set i v }) ∧
    (∀ i : Fin 4, off.val.toNat = 0x040 + 4 * i.val →
      hostWrite32 off v s = .next { s with iv := s.iv.set i v }) ∧
    (∀ a : Nat, a < s.bufBytes → off.val.toNat = 0x1000 + a →
      ∃ t : State, hostWrite32 off v s = .next t ∧ t = { s with buf := t.buf } ∧
        (∀ j : Fin 4, readByte t (a + j.val) = (bytesBe32 v)[j]) ∧
        (∀ c, c < a ∨ a + 4 ≤ c → readByte t c = readByte s c)) ∧
    ((off.val.toNat = 0x004 ∨ off.val.toNat = 0x008 ∨ off.val.toNat = 0x00C ∨ off.val.toNat = 0x01C ∨
        (0x050 ≤ off.val.toNat ∧ off.val.toNat < 0x1000) ∨ 0x1000 + s.bufBytes ≤ off.val.toNat) →
      hostWrite32 off v s = .next s)

/-- Rules R22 and R63: `KEYLEN`, `SRC`, `LEN`, `KEY`, `IV` and the words of the buffer window return all 32
bits of what the host wrote, whatever the value of `ERR`. -/
def Obligations.HostReadsBackWhatItWrote : Prop :=
  ∀ (s : State) (off : Offset) (v : Word),
    (off.val.toNat = 0x010 ∨ off.val.toNat = 0x014 ∨ off.val.toNat = 0x018 ∨
      (0x020 ≤ off.val.toNat ∧ off.val.toNat < 0x050) ∨
      (0x1000 ≤ off.val.toNat ∧ off.val.toNat < 0x1000 + s.bufBytes)) →
    ∃ t : State, hostWrite32 off v s = .next t ∧ hostRead32 off t = v

/-- Rules R31 and R67: a write to any offset but `CMD` is accepted whatever the value of `ERR`, raises no
error, and leaves what every other offset reads as. -/
def Obligations.HostWriteLeavesOtherOffsets : Prop :=
  ∀ (s : State) (off : Offset) (v : Word), off.val ≠ 0x000 →
    ∃ t : State, hostWrite32 off v s = .next t ∧ t.err = s.err ∧
      ∀ off' : Offset, off' ≠ off → hostRead32 off' t = hostRead32 off' s

/-- Rule R31: a write to a read-only, reserved or unmapped offset changes nothing and raises no error; a
read of `CMD`, a reserved or an unmapped offset returns 0. -/
def Obligations.ReservedOffsetsReadZeroAndIgnoreWrites : Prop :=
  ∀ (s : State) (off : Offset) (v : Word),
    ((off.val.toNat = 0x004 ∨ off.val.toNat = 0x008 ∨ off.val.toNat = 0x00C ∨
        (0x060 ≤ off.val.toNat ∧ off.val.toNat < 0x080)) → hostWrite32 off v s = .next s) ∧
    ((off.val.toNat = 0x01C ∨ (0x050 ≤ off.val.toNat ∧ off.val.toNat < 0x060) ∨
        (0x080 ≤ off.val.toNat ∧ off.val.toNat < 0x1000) ∨ 0x1000 + s.bufBytes ≤ off.val.toNat) →
      hostWrite32 off v s = .next s ∧ hostRead32 off s = 0) ∧
    (off.val.toNat = 0x000 → hostRead32 off s = 0)

/-- Rule R27: the fields of `STATUS`; a write to it is ignored, and it reads 0 after hard reset. -/
def Obligations.StatusFields : Prop :=
  ∀ s : State,
    (hostRead32 ⟨0x004, rfl⟩ s).getLsbD 0 = false ∧
    (hostRead32 ⟨0x004, rfl⟩ s).getLsbD 1 = decide (s.err ≠ 0) ∧
    (hostRead32 ⟨0x004, rfl⟩ s).getLsbD 2 = s.hValid ∧
    (hostRead32 ⟨0x004, rfl⟩ s).getLsbD 3 = s.ksValid ∧
    (hostRead32 ⟨0x004, rfl⟩ s).extractLsb' 4 4 = 0 ∧
    (hostRead32 ⟨0x004, rfl⟩ s).extractLsb' 8 4 = s.ksNk ∧
    (hostRead32 ⟨0x004, rfl⟩ s).extractLsb' 12 20 = 0 ∧
    (∀ v, hostWrite32 ⟨0x004, rfl⟩ v s = .next s) ∧
    hostRead32 ⟨0x004, rfl⟩ State.reset = 0x00000000

/-- Rule R65: an access whose offset is not a multiple of 4 is refused at the boundary, not given a
value. -/
def Obligations.MisalignedHostAccessIsRefused : Prop :=
  ∀ (s : State) (off v : Word) (rest : List HostEvent), off.toNat % 4 ≠ 0 →
    (s.pending = .read off :: rest → step s = .refused (.misalignedHostAccess off)) ∧
    (s.pending = .write off v :: rest → step s = .refused (.misalignedHostAccess off))

/-- Rule R23: the bytes of `KEY`, `IV` and `H`, and `KEY[i]` as `be32` of its four key bytes. -/
def Obligations.RegisterBytesAreBigEndian : Prop :=
  ∀ s : State,
    (∀ k, k < 32 → (keyBytes s 8).getD k 0 =
      (bytesBe32 (s.key.toList.getD (k / 4) 0)).toList.getD (k % 4) 0) ∧
    (∀ i : Fin 8, s.key[i] = be32At (keyBytes s 8) (4 * i.val)) ∧
    (∀ k, k < 16 → (ivBytes s).toList.getD k 0 =
      (bytesBe32 (s.iv.toList.getD (k / 4) 0)).toList.getD (k % 4) 0) ∧
    (∀ k, k < 32 → (digestBytes s.h).getD k 0 =
      (bytesBe32 (s.h.toList.getD (k / 4) 0)).toList.getD (k % 4) 0)

/-! ### Whole-machine rules -/

/-- Rules R91 and R250: when the host makes only accesses its interface offers, every step answers a next
state, so a run of any length goes through: no command fails to terminate and no error stops the
engine. -/
def Obligations.EngineNeverStops : Prop :=
  ∀ (n : Nat) (s : State), s.HostOk → SafeRun n s

/-- Rule R75: the accesses take effect one at a time, each command complete before the next access, so
what the host will do later has no influence: running the first events is the same whatever follows
them. -/
def Obligations.LaterAccessesHaveNoInfluence : Prop :=
  ∀ (s t : State) (now later : List HostEvent),
    Host.Core.run Sys2Proof.core now.length { s with pending := now } = .next t →
    Host.Core.run Sys2Proof.core now.length { s with pending := now ++ later } =
      .next { t with pending := later }

/-! ### Invariants -/

/-- The state after reset meets the invariant (rule R45, with the free values of log entries 1 and 2,
whatever they are): it holds no schedule and no hash, and `BUF_BYTES` is a multiple of 64 in
`64 .. 2^31` (rule R7). That no access is pending and the host has read nothing is the model's choice (log
entry 3). -/
def Obligations.ResetMeetsTheInvariant : Prop :=
  State.reset.Inv ∧ State.reset.HostOk ∧
  State.reset.ksValid = false ∧ State.reset.hValid = false ∧
  State.reset.bufBytes % 64 = 0 ∧ 64 ≤ State.reset.bufBytes ∧ State.reset.bufBytes ≤ 2 ^ 31 ∧
  State.reset.pending = [] ∧ State.reset.reads = []

/-- Every step keeps the buffer memory in its canonical form and inside `BUF` (rules R13, R35, R256). -/
def Obligations.StepKeepsMemoryCanonicalAndInBounds : Prop :=
  ∀ s t : State, s.MemoryOk → step s = .next t → t.MemoryOk

/-- Every step keeps `ERR` a listed code and `ERRINFO` 0 while `ERR` is (rules R28, R29, R251). -/
def Obligations.StepKeepsLatchLegal : Prop :=
  ∀ s t : State, s.LatchOk → step s = .next t → t.LatchOk

/-- Every step keeps the meaning of `KS_VALID`: `KS` holds the complete schedule of some key (rules R21,
R32). -/
def Obligations.StepKeepsScheduleComplete : Prop :=
  ∀ s t : State, s.ScheduleOk → step s = .next t → t.ScheduleOk

/-- Every step keeps the meaning of `H_VALID`: `H` descends from `HINIT` by compressions (rule R21,
decision D30). -/
def Obligations.StepKeepsHashDescendsFromInit : Prop :=
  ∀ s t : State, s.HashOk → step s = .next t → t.HashOk

/-- Every step keeps the whole invariant, from every state that meets it. -/
def Obligations.StepKeepsTheInvariant : Prop :=
  ∀ s t : State, s.Inv → step s = .next t → t.Inv

/-! ### Reset -/

/-- Rule R45: the values after hard reset. The last clause is the model's: what an unwritten byte of `BUF`
reads as is the free value of log entry 2, whatever it is, since the rule leaves it unspecified. -/
def Obligations.ResetValues : Prop :=
  State.reset.keylen = 0 ∧ State.reset.src = 0 ∧ State.reset.len = 0 ∧
  (∀ i : Fin 8, State.reset.key[i] = 0) ∧ (∀ i : Fin 4, State.reset.iv[i] = 0) ∧
  (∀ i : Fin 8, State.reset.h[i] = 0) ∧ State.reset.hValid = false ∧
  (∀ i : Fin 60, State.reset.ks[i] = 0) ∧ State.reset.ksNk = 0 ∧ State.reset.ksValid = false ∧
  State.reset.err = 0 ∧ State.reset.errinfo = 0 ∧ status State.reset = 0x00000000 ∧
  (∀ a, readByte State.reset a = Config.freeBufByte State.reset.resets a)

/-! ### Host notation and host procedures -/

/-- Rule R98, `LDBYTES` and `RDBYTES`: in a legal buffer, loading makes `BUF[a+i] = b[i]`, leaves every
other byte and everything else as it was, and reading bytes back gives the bytes of `BUF`. That
the list `reads` too is as it was, although `LDBYTES` reads words by `RDBUF`, is the model's choice (log
entry 10). -/
def Obligations.LoadAndReadBytes : Prop :=
  ∀ (s : State) (a : Nat) (b : List Byte), Config.legalBufBytes s.bufBytes = true →
    a + b.length ≤ s.bufBytes →
    ∃ t : State, loadBytes a b s = .next t ∧ t = { s with buf := t.buf } ∧
      (∀ i, i < b.length → readByte t (a + i) = b.getD i 0) ∧
      (∀ c, c < a ∨ a + b.length ≤ c → readByte t c = readByte s c) ∧
      readBytes a b.length t = b

/-- Rule R98, `KEYFROMH`: the digest becomes the key with no byte swap. That the list `reads` is as it was,
although `KEYFROMH` reads each `H` word, is the model's choice (log entry 10). -/
def Obligations.KeyFromHashCopiesWords : Prop :=
  ∀ s : State, keyFromH s = .next { s with key := s.h, keylen := 32 }

/-- Rule R220: for a message of fewer than `2^61` bytes `Pad(M)` is `M`, one byte `0x80`, the least number
of zero bytes that makes the length before the last eight bytes 56 modulo 64, and the length in bits as
eight bytes; its length is a multiple of 64 and the least such that is at least `L + 9`. For a longer
message it is not defined. -/
def Obligations.PadShapeAndLength : Prop :=
  (∀ m : List Byte, m.length < 2 ^ 61 →
    ∃ z : Nat, pad m = some (m ++ 0x80 :: List.replicate z 0 ++ bytesBe64 (8 * m.length)) ∧
      (m.length + 1 + z) % 64 = 56 ∧ (∀ y, (m.length + 1 + y) % 64 = 56 → z ≤ y) ∧
      (m.length + 1 + z + 8) % 64 = 0 ∧
      (∀ k, m.length + 9 ≤ 64 * k → m.length + 1 + z + 8 ≤ 64 * k) ∧
      (bytesBe64 (8 * m.length)).length = 8 ∧
      (bytesBe64 (8 * m.length)).foldl (fun n b => 2 ^ 8 * n + b.toNat) 0 = 8 * m.length) ∧
  (∀ m : List Byte, 2 ^ 61 ≤ m.length → pad m = none)

/-- Rule R224: `stripPadding` accepts exactly the buffers that end in `n` bytes all equal to `n` for an
`n` in `[1,16]`, and returns what stands before them. -/
def Obligations.StripPaddingAcceptsExactly : Prop :=
  ∀ buffer out : List Byte, stripPadding buffer = some out ↔
    ∃ n : Byte, 1 ≤ n.toNat ∧ n.toNat ≤ 16 ∧ buffer = out ++ List.replicate n.toNat n

/-- Rules R123 and R221: on an engine with no error latched, `digest(M)` runs through and returns the
bytes of the chain of `Compress` from `HINIT` over the blocks of `Pad(M)`. -/
def Obligations.DigestIsTheHashOfThePaddedMessage : Prop :=
  ∀ (s : State) (m p : List Byte), s.err = 0 → Config.legalBufBytes s.bufBytes = true →
    pad m = some p →
    ∃ t : State, digest m s = .done t
      (digestBytes ((List.range (p.length / 64)).foldl
        (fun h k => compress h (Vector.ofFn fun i : Fin 64 => p.getD (64 * k + i.val) 0)) hInit))

/-- Rule R228: when `useMasterKey` is false, the master-key section of a file is ignored: the file is
decrypted as the file without that section and with the other tag is. -/
def Obligations.UnusedMasterSectionIsIgnored : Prop :=
  ∀ (s : State) (file passphrase : List Byte), 72 ≤ file.length →
    be32At file 4 = tagHasMasterKey →
    decryptFile file passphrase false s =
      decryptFile (file.take 4 ++ [0x01, 0x00, 0x00, 0x00] ++ slice file 8 16 ++ file.drop 72)
        passphrase false s

/-- Rule R229: the decoder has no result, and names no error, for a file of 1 to 23 bytes and for a
has-master-key file of 24 to 71 bytes. -/
def Obligations.ShortFilesHaveNoResult : Prop :=
  ∀ (s : State) (file passphrase : List Byte) (useMasterKey : Bool),
    (1 ≤ file.length → file.length ≤ 23 →
      decryptFile file passphrase useMasterKey s = .noResult) ∧
    (24 ≤ file.length → file.length ≤ 71 → be32At file 0 = 0x04030201 →
      be32At file 4 = 0x02000000 → decryptFile file passphrase useMasterKey s = .noResult)

/-! ### The notation the statements rest on -/

/-- Rules R9, R10, R11 and R13: what the word, byte and packing helpers compute, that the two packings are
inverse to each other, and that `MemRead` gives the bytes of `BUF` in order. The other statements use these
names. -/
def Obligations.NotationMeansWhatItSays : Prop :=
  (∀ x y : Word, (x + y).toNat = (x.toNat + y.toNat) % 2 ^ 32 ∧ ~~~x = x ^^^ 0xFFFFFFFF) ∧
  (∀ (x : Word) (n : Nat), 0 < n → n < 32 →
    (shr32 x n).toNat = x.toNat / 2 ^ n ∧
    rotr32 x n = shr32 x n ||| BitVec.ofNat 32 (x.toNat * 2 ^ (32 - n)) ∧
    rotl32 x n = rotr32 x (32 - n)) ∧
  (∀ (x : Byte) (n : Nat), 0 < n → n < 8 →
    rotl8 x n = BitVec.ofNat 8 (x.toNat * 2 ^ n) ||| BitVec.ofNat 8 (x.toNat / 2 ^ (8 - n))) ∧
  (∀ b0 b1 b2 b3 : Byte,
    (be32 b0 b1 b2 b3).toNat =
      b0.toNat * 2 ^ 24 + b1.toNat * 2 ^ 16 + b2.toNat * 2 ^ 8 + b3.toNat ∧
    bytesBe32 (be32 b0 b1 b2 b3) = #v[b0, b1, b2, b3]) ∧
  (∀ w : Word,
    bytesBe32 w =
      #v[w.extractLsb' 24 8, w.extractLsb' 16 8, w.extractLsb' 8 8, w.extractLsb' 0 8] ∧
    be32 (bytesBe32 w)[0] (bytesBe32 w)[1] (bytesBe32 w)[2] (bytesBe32 w)[3] = w) ∧
  (∀ (s : State) (a n : Nat) (i : Fin n), (memRead s a n)[i] = readByte s (a + i.val))
end

