-- ==== Sys2Proof/Laws/State.lean ====
section
/-! SUPPORT. One lemma per field per update, true by `rfl`, so that no proof unfolds a record update. -/

namespace Sys2Proof.Machine

variable (s : State)

/-! ### `State.setKeylen` -/

@[simp] theorem State.setKeylen_keylen (v : Word) : (s.setKeylen v).keylen = v := rfl
@[simp] theorem State.setKeylen_src (v : Word) : (s.setKeylen v).src = s.src := rfl
@[simp] theorem State.setKeylen_len (v : Word) : (s.setKeylen v).len = s.len := rfl
@[simp] theorem State.setKeylen_key (v : Word) : (s.setKeylen v).key = s.key := rfl
@[simp] theorem State.setKeylen_iv (v : Word) : (s.setKeylen v).iv = s.iv := rfl
@[simp] theorem State.setKeylen_h (v : Word) : (s.setKeylen v).h = s.h := rfl
@[simp] theorem State.setKeylen_hValid (v : Word) : (s.setKeylen v).hValid = s.hValid := rfl
@[simp] theorem State.setKeylen_ks (v : Word) : (s.setKeylen v).ks = s.ks := rfl
@[simp] theorem State.setKeylen_ksNk (v : Word) : (s.setKeylen v).ksNk = s.ksNk := rfl
@[simp] theorem State.setKeylen_ksValid (v : Word) : (s.setKeylen v).ksValid = s.ksValid := rfl
@[simp] theorem State.setKeylen_err (v : Word) : (s.setKeylen v).err = s.err := rfl
@[simp] theorem State.setKeylen_errinfo (v : Word) : (s.setKeylen v).errinfo = s.errinfo := rfl
@[simp] theorem State.setKeylen_buf (v : Word) : (s.setKeylen v).buf = s.buf := rfl
@[simp] theorem State.setKeylen_bufBytes (v : Word) : (s.setKeylen v).bufBytes = s.bufBytes := rfl
@[simp] theorem State.setKeylen_resets (v : Word) : (s.setKeylen v).resets = s.resets := rfl
@[simp] theorem State.setKeylen_pending (v : Word) : (s.setKeylen v).pending = s.pending := rfl
@[simp] theorem State.setKeylen_reads (v : Word) : (s.setKeylen v).reads = s.reads := rfl

/-! ### `State.setSrc` -/

@[simp] theorem State.setSrc_keylen (v : Word) : (s.setSrc v).keylen = s.keylen := rfl
@[simp] theorem State.setSrc_src (v : Word) : (s.setSrc v).src = v := rfl
@[simp] theorem State.setSrc_len (v : Word) : (s.setSrc v).len = s.len := rfl
@[simp] theorem State.setSrc_key (v : Word) : (s.setSrc v).key = s.key := rfl
@[simp] theorem State.setSrc_iv (v : Word) : (s.setSrc v).iv = s.iv := rfl
@[simp] theorem State.setSrc_h (v : Word) : (s.setSrc v).h = s.h := rfl
@[simp] theorem State.setSrc_hValid (v : Word) : (s.setSrc v).hValid = s.hValid := rfl
@[simp] theorem State.setSrc_ks (v : Word) : (s.setSrc v).ks = s.ks := rfl
@[simp] theorem State.setSrc_ksNk (v : Word) : (s.setSrc v).ksNk = s.ksNk := rfl
@[simp] theorem State.setSrc_ksValid (v : Word) : (s.setSrc v).ksValid = s.ksValid := rfl
@[simp] theorem State.setSrc_err (v : Word) : (s.setSrc v).err = s.err := rfl
@[simp] theorem State.setSrc_errinfo (v : Word) : (s.setSrc v).errinfo = s.errinfo := rfl
@[simp] theorem State.setSrc_buf (v : Word) : (s.setSrc v).buf = s.buf := rfl
@[simp] theorem State.setSrc_bufBytes (v : Word) : (s.setSrc v).bufBytes = s.bufBytes := rfl
@[simp] theorem State.setSrc_resets (v : Word) : (s.setSrc v).resets = s.resets := rfl
@[simp] theorem State.setSrc_pending (v : Word) : (s.setSrc v).pending = s.pending := rfl
@[simp] theorem State.setSrc_reads (v : Word) : (s.setSrc v).reads = s.reads := rfl

/-! ### `State.setLen` -/

@[simp] theorem State.setLen_keylen (v : Word) : (s.setLen v).keylen = s.keylen := rfl
@[simp] theorem State.setLen_src (v : Word) : (s.setLen v).src = s.src := rfl
@[simp] theorem State.setLen_len (v : Word) : (s.setLen v).len = v := rfl
@[simp] theorem State.setLen_key (v : Word) : (s.setLen v).key = s.key := rfl
@[simp] theorem State.setLen_iv (v : Word) : (s.setLen v).iv = s.iv := rfl
@[simp] theorem State.setLen_h (v : Word) : (s.setLen v).h = s.h := rfl
@[simp] theorem State.setLen_hValid (v : Word) : (s.setLen v).hValid = s.hValid := rfl
@[simp] theorem State.setLen_ks (v : Word) : (s.setLen v).ks = s.ks := rfl
@[simp] theorem State.setLen_ksNk (v : Word) : (s.setLen v).ksNk = s.ksNk := rfl
@[simp] theorem State.setLen_ksValid (v : Word) : (s.setLen v).ksValid = s.ksValid := rfl
@[simp] theorem State.setLen_err (v : Word) : (s.setLen v).err = s.err := rfl
@[simp] theorem State.setLen_errinfo (v : Word) : (s.setLen v).errinfo = s.errinfo := rfl
@[simp] theorem State.setLen_buf (v : Word) : (s.setLen v).buf = s.buf := rfl
@[simp] theorem State.setLen_bufBytes (v : Word) : (s.setLen v).bufBytes = s.bufBytes := rfl
@[simp] theorem State.setLen_resets (v : Word) : (s.setLen v).resets = s.resets := rfl
@[simp] theorem State.setLen_pending (v : Word) : (s.setLen v).pending = s.pending := rfl
@[simp] theorem State.setLen_reads (v : Word) : (s.setLen v).reads = s.reads := rfl

/-! ### `State.setKeyWord` -/

@[simp] theorem State.setKeyWord_keylen (i : Fin 8) (v : Word) :
    (s.setKeyWord i v).keylen = s.keylen := rfl
@[simp] theorem State.setKeyWord_src (i : Fin 8) (v : Word) : (s.setKeyWord i v).src = s.src := rfl
@[simp] theorem State.setKeyWord_len (i : Fin 8) (v : Word) : (s.setKeyWord i v).len = s.len := rfl
@[simp] theorem State.setKeyWord_key (i : Fin 8) (v : Word) :
    (s.setKeyWord i v).key = s.key.set i v := rfl
@[simp] theorem State.setKeyWord_iv (i : Fin 8) (v : Word) : (s.setKeyWord i v).iv = s.iv := rfl
@[simp] theorem State.setKeyWord_h (i : Fin 8) (v : Word) : (s.setKeyWord i v).h = s.h := rfl
@[simp] theorem State.setKeyWord_hValid (i : Fin 8) (v : Word) :
    (s.setKeyWord i v).hValid = s.hValid := rfl
@[simp] theorem State.setKeyWord_ks (i : Fin 8) (v : Word) : (s.setKeyWord i v).ks = s.ks := rfl
@[simp] theorem State.setKeyWord_ksNk (i : Fin 8) (v : Word) :
    (s.setKeyWord i v).ksNk = s.ksNk := rfl
@[simp] theorem State.setKeyWord_ksValid (i : Fin 8) (v : Word) :
    (s.setKeyWord i v).ksValid = s.ksValid := rfl
@[simp] theorem State.setKeyWord_err (i : Fin 8) (v : Word) : (s.setKeyWord i v).err = s.err := rfl
@[simp] theorem State.setKeyWord_errinfo (i : Fin 8) (v : Word) :
    (s.setKeyWord i v).errinfo = s.errinfo := rfl
@[simp] theorem State.setKeyWord_buf (i : Fin 8) (v : Word) : (s.setKeyWord i v).buf = s.buf := rfl
@[simp] theorem State.setKeyWord_bufBytes (i : Fin 8) (v : Word) :
    (s.setKeyWord i v).bufBytes = s.bufBytes := rfl
@[simp] theorem State.setKeyWord_resets (i : Fin 8) (v : Word) :
    (s.setKeyWord i v).resets = s.resets := rfl
@[simp] theorem State.setKeyWord_pending (i : Fin 8) (v : Word) :
    (s.setKeyWord i v).pending = s.pending := rfl
@[simp] theorem State.setKeyWord_reads (i : Fin 8) (v : Word) :
    (s.setKeyWord i v).reads = s.reads := rfl

/-! ### `State.setIvWord` -/

@[simp] theorem State.setIvWord_keylen (i : Fin 4) (v : Word) :
    (s.setIvWord i v).keylen = s.keylen := rfl
@[simp] theorem State.setIvWord_src (i : Fin 4) (v : Word) : (s.setIvWord i v).src = s.src := rfl
@[simp] theorem State.setIvWord_len (i : Fin 4) (v : Word) : (s.setIvWord i v).len = s.len := rfl
@[simp] theorem State.setIvWord_key (i : Fin 4) (v : Word) : (s.setIvWord i v).key = s.key := rfl
@[simp] theorem State.setIvWord_iv (i : Fin 4) (v : Word) :
    (s.setIvWord i v).iv = s.iv.set i v := rfl
@[simp] theorem State.setIvWord_h (i : Fin 4) (v : Word) : (s.setIvWord i v).h = s.h := rfl
@[simp] theorem State.setIvWord_hValid (i : Fin 4) (v : Word) :
    (s.setIvWord i v).hValid = s.hValid := rfl
@[simp] theorem State.setIvWord_ks (i : Fin 4) (v : Word) : (s.setIvWord i v).ks = s.ks := rfl
@[simp] theorem State.setIvWord_ksNk (i : Fin 4) (v : Word) : (s.setIvWord i v).ksNk = s.ksNk := rfl
@[simp] theorem State.setIvWord_ksValid (i : Fin 4) (v : Word) :
    (s.setIvWord i v).ksValid = s.ksValid := rfl
@[simp] theorem State.setIvWord_err (i : Fin 4) (v : Word) : (s.setIvWord i v).err = s.err := rfl
@[simp] theorem State.setIvWord_errinfo (i : Fin 4) (v : Word) :
    (s.setIvWord i v).errinfo = s.errinfo := rfl
@[simp] theorem State.setIvWord_buf (i : Fin 4) (v : Word) : (s.setIvWord i v).buf = s.buf := rfl
@[simp] theorem State.setIvWord_bufBytes (i : Fin 4) (v : Word) :
    (s.setIvWord i v).bufBytes = s.bufBytes := rfl
@[simp] theorem State.setIvWord_resets (i : Fin 4) (v : Word) :
    (s.setIvWord i v).resets = s.resets := rfl
@[simp] theorem State.setIvWord_pending (i : Fin 4) (v : Word) :
    (s.setIvWord i v).pending = s.pending := rfl
@[simp] theorem State.setIvWord_reads (i : Fin 4) (v : Word) :
    (s.setIvWord i v).reads = s.reads := rfl

/-! ### `State.setHash` -/

@[simp] theorem State.setHash_keylen (w : Vector Word 8) : (s.setHash w).keylen = s.keylen := rfl
@[simp] theorem State.setHash_src (w : Vector Word 8) : (s.setHash w).src = s.src := rfl
@[simp] theorem State.setHash_len (w : Vector Word 8) : (s.setHash w).len = s.len := rfl
@[simp] theorem State.setHash_key (w : Vector Word 8) : (s.setHash w).key = s.key := rfl
@[simp] theorem State.setHash_iv (w : Vector Word 8) : (s.setHash w).iv = s.iv := rfl
@[simp] theorem State.setHash_h (w : Vector Word 8) : (s.setHash w).h = w := rfl
@[simp] theorem State.setHash_hValid (w : Vector Word 8) : (s.setHash w).hValid = s.hValid := rfl
@[simp] theorem State.setHash_ks (w : Vector Word 8) : (s.setHash w).ks = s.ks := rfl
@[simp] theorem State.setHash_ksNk (w : Vector Word 8) : (s.setHash w).ksNk = s.ksNk := rfl
@[simp] theorem State.setHash_ksValid (w : Vector Word 8) : (s.setHash w).ksValid = s.ksValid := rfl
@[simp] theorem State.setHash_err (w : Vector Word 8) : (s.setHash w).err = s.err := rfl
@[simp] theorem State.setHash_errinfo (w : Vector Word 8) : (s.setHash w).errinfo = s.errinfo := rfl
@[simp] theorem State.setHash_buf (w : Vector Word 8) : (s.setHash w).buf = s.buf := rfl
@[simp] theorem State.setHash_bufBytes (w : Vector Word 8) :
    (s.setHash w).bufBytes = s.bufBytes := rfl
@[simp] theorem State.setHash_resets (w : Vector Word 8) : (s.setHash w).resets = s.resets := rfl
@[simp] theorem State.setHash_pending (w : Vector Word 8) : (s.setHash w).pending = s.pending := rfl
@[simp] theorem State.setHash_reads (w : Vector Word 8) : (s.setHash w).reads = s.reads := rfl

/-! ### `State.markHashValid` -/

@[simp] theorem State.markHashValid_keylen : (s.markHashValid).keylen = s.keylen := rfl
@[simp] theorem State.markHashValid_src : (s.markHashValid).src = s.src := rfl
@[simp] theorem State.markHashValid_len : (s.markHashValid).len = s.len := rfl
@[simp] theorem State.markHashValid_key : (s.markHashValid).key = s.key := rfl
@[simp] theorem State.markHashValid_iv : (s.markHashValid).iv = s.iv := rfl
@[simp] theorem State.markHashValid_h : (s.markHashValid).h = s.h := rfl
@[simp] theorem State.markHashValid_hValid : (s.markHashValid).hValid = true := rfl
@[simp] theorem State.markHashValid_ks : (s.markHashValid).ks = s.ks := rfl
@[simp] theorem State.markHashValid_ksNk : (s.markHashValid).ksNk = s.ksNk := rfl
@[simp] theorem State.markHashValid_ksValid : (s.markHashValid).ksValid = s.ksValid := rfl
@[simp] theorem State.markHashValid_err : (s.markHashValid).err = s.err := rfl
@[simp] theorem State.markHashValid_errinfo : (s.markHashValid).errinfo = s.errinfo := rfl
@[simp] theorem State.markHashValid_buf : (s.markHashValid).buf = s.buf := rfl
@[simp] theorem State.markHashValid_bufBytes : (s.markHashValid).bufBytes = s.bufBytes := rfl
@[simp] theorem State.markHashValid_resets : (s.markHashValid).resets = s.resets := rfl
@[simp] theorem State.markHashValid_pending : (s.markHashValid).pending = s.pending := rfl
@[simp] theorem State.markHashValid_reads : (s.markHashValid).reads = s.reads := rfl

/-! ### `State.setSchedule` -/

@[simp] theorem State.setSchedule_keylen (w : Vector Word 60) (nk : Nat) :
    (s.setSchedule w nk).keylen = s.keylen := rfl
@[simp] theorem State.setSchedule_src (w : Vector Word 60) (nk : Nat) :
    (s.setSchedule w nk).src = s.src := rfl
@[simp] theorem State.setSchedule_len (w : Vector Word 60) (nk : Nat) :
    (s.setSchedule w nk).len = s.len := rfl
@[simp] theorem State.setSchedule_key (w : Vector Word 60) (nk : Nat) :
    (s.setSchedule w nk).key = s.key := rfl
@[simp] theorem State.setSchedule_iv (w : Vector Word 60) (nk : Nat) :
    (s.setSchedule w nk).iv = s.iv := rfl
@[simp] theorem State.setSchedule_h (w : Vector Word 60) (nk : Nat) :
    (s.setSchedule w nk).h = s.h := rfl
@[simp] theorem State.setSchedule_hValid (w : Vector Word 60) (nk : Nat) :
    (s.setSchedule w nk).hValid = s.hValid := rfl
@[simp] theorem State.setSchedule_ks (w : Vector Word 60) (nk : Nat) :
    (s.setSchedule w nk).ks = w := rfl
@[simp] theorem State.setSchedule_ksNk (w : Vector Word 60) (nk : Nat) :
    (s.setSchedule w nk).ksNk = BitVec.ofNat 4 nk := rfl
@[simp] theorem State.setSchedule_ksValid (w : Vector Word 60) (nk : Nat) :
    (s.setSchedule w nk).ksValid = true := rfl
@[simp] theorem State.setSchedule_err (w : Vector Word 60) (nk : Nat) :
    (s.setSchedule w nk).err = s.err := rfl
@[simp] theorem State.setSchedule_errinfo (w : Vector Word 60) (nk : Nat) :
    (s.setSchedule w nk).errinfo = s.errinfo := rfl
@[simp] theorem State.setSchedule_buf (w : Vector Word 60) (nk : Nat) :
    (s.setSchedule w nk).buf = s.buf := rfl
@[simp] theorem State.setSchedule_bufBytes (w : Vector Word 60) (nk : Nat) :
    (s.setSchedule w nk).bufBytes = s.bufBytes := rfl
@[simp] theorem State.setSchedule_resets (w : Vector Word 60) (nk : Nat) :
    (s.setSchedule w nk).resets = s.resets := rfl
@[simp] theorem State.setSchedule_pending (w : Vector Word 60) (nk : Nat) :
    (s.setSchedule w nk).pending = s.pending := rfl
@[simp] theorem State.setSchedule_reads (w : Vector Word 60) (nk : Nat) :
    (s.setSchedule w nk).reads = s.reads := rfl

/-! ### `memWrite` -/

@[simp] theorem memWrite_keylen {n : Nat} (a : Nat) (b : Vector Byte n) :
    (memWrite s a b).keylen = s.keylen := rfl
@[simp] theorem memWrite_src {n : Nat} (a : Nat) (b : Vector Byte n) :
    (memWrite s a b).src = s.src := rfl
@[simp] theorem memWrite_len {n : Nat} (a : Nat) (b : Vector Byte n) :
    (memWrite s a b).len = s.len := rfl
@[simp] theorem memWrite_key {n : Nat} (a : Nat) (b : Vector Byte n) :
    (memWrite s a b).key = s.key := rfl
@[simp] theorem memWrite_iv {n : Nat} (a : Nat) (b : Vector Byte n) :
    (memWrite s a b).iv = s.iv := rfl
@[simp] theorem memWrite_h {n : Nat} (a : Nat) (b : Vector Byte n) : (memWrite s a b).h = s.h := rfl
@[simp] theorem memWrite_hValid {n : Nat} (a : Nat) (b : Vector Byte n) :
    (memWrite s a b).hValid = s.hValid := rfl
@[simp] theorem memWrite_ks {n : Nat} (a : Nat) (b : Vector Byte n) :
    (memWrite s a b).ks = s.ks := rfl
@[simp] theorem memWrite_ksNk {n : Nat} (a : Nat) (b : Vector Byte n) :
    (memWrite s a b).ksNk = s.ksNk := rfl
@[simp] theorem memWrite_ksValid {n : Nat} (a : Nat) (b : Vector Byte n) :
    (memWrite s a b).ksValid = s.ksValid := rfl
@[simp] theorem memWrite_err {n : Nat} (a : Nat) (b : Vector Byte n) :
    (memWrite s a b).err = s.err := rfl
@[simp] theorem memWrite_errinfo {n : Nat} (a : Nat) (b : Vector Byte n) :
    (memWrite s a b).errinfo = s.errinfo := rfl
@[simp] theorem memWrite_buf {n : Nat} (a : Nat) (b : Vector Byte n) :
    (memWrite s a b).buf = s.buf.putBytes a b.toList := rfl
@[simp] theorem memWrite_bufBytes {n : Nat} (a : Nat) (b : Vector Byte n) :
    (memWrite s a b).bufBytes = s.bufBytes := rfl
@[simp] theorem memWrite_resets {n : Nat} (a : Nat) (b : Vector Byte n) :
    (memWrite s a b).resets = s.resets := rfl
@[simp] theorem memWrite_pending {n : Nat} (a : Nat) (b : Vector Byte n) :
    (memWrite s a b).pending = s.pending := rfl
@[simp] theorem memWrite_reads {n : Nat} (a : Nat) (b : Vector Byte n) :
    (memWrite s a b).reads = s.reads := rfl

/-! ### `latchError` -/

@[simp] theorem latchError_keylen (e : EngineError) (v : Word) :
    (latchError e v s).keylen = s.keylen := rfl
@[simp] theorem latchError_src (e : EngineError) (v : Word) : (latchError e v s).src = s.src := rfl
@[simp] theorem latchError_len (e : EngineError) (v : Word) : (latchError e v s).len = s.len := rfl
@[simp] theorem latchError_key (e : EngineError) (v : Word) : (latchError e v s).key = s.key := rfl
@[simp] theorem latchError_iv (e : EngineError) (v : Word) : (latchError e v s).iv = s.iv := rfl
@[simp] theorem latchError_h (e : EngineError) (v : Word) : (latchError e v s).h = s.h := rfl
@[simp] theorem latchError_hValid (e : EngineError) (v : Word) :
    (latchError e v s).hValid = s.hValid := rfl
@[simp] theorem latchError_ks (e : EngineError) (v : Word) : (latchError e v s).ks = s.ks := rfl
@[simp] theorem latchError_ksNk (e : EngineError) (v : Word) :
    (latchError e v s).ksNk = s.ksNk := rfl
@[simp] theorem latchError_ksValid (e : EngineError) (v : Word) :
    (latchError e v s).ksValid = s.ksValid := rfl
@[simp] theorem latchError_err (e : EngineError) (v : Word) :
    (latchError e v s).err = errorCode e := rfl
@[simp] theorem latchError_errinfo (e : EngineError) (v : Word) :
    (latchError e v s).errinfo = v := rfl
@[simp] theorem latchError_buf (e : EngineError) (v : Word) : (latchError e v s).buf = s.buf := rfl
@[simp] theorem latchError_bufBytes (e : EngineError) (v : Word) :
    (latchError e v s).bufBytes = s.bufBytes := rfl
@[simp] theorem latchError_resets (e : EngineError) (v : Word) :
    (latchError e v s).resets = s.resets := rfl
@[simp] theorem latchError_pending (e : EngineError) (v : Word) :
    (latchError e v s).pending = s.pending := rfl
@[simp] theorem latchError_reads (e : EngineError) (v : Word) :
    (latchError e v s).reads = s.reads := rfl

/-! ### `clearRegisters` -/

@[simp] theorem clearRegisters_keylen : (clearRegisters s).keylen = 0 := rfl
@[simp] theorem clearRegisters_src : (clearRegisters s).src = 0 := rfl
@[simp] theorem clearRegisters_len : (clearRegisters s).len = 0 := rfl
@[simp] theorem clearRegisters_key : (clearRegisters s).key = Vector.replicate 8 0 := rfl
@[simp] theorem clearRegisters_iv : (clearRegisters s).iv = Vector.replicate 4 0 := rfl
@[simp] theorem clearRegisters_h : (clearRegisters s).h = Vector.replicate 8 0 := rfl
@[simp] theorem clearRegisters_hValid : (clearRegisters s).hValid = false := rfl
@[simp] theorem clearRegisters_ks : (clearRegisters s).ks = Vector.replicate 60 0 := rfl
@[simp] theorem clearRegisters_ksNk : (clearRegisters s).ksNk = 0 := rfl
@[simp] theorem clearRegisters_ksValid : (clearRegisters s).ksValid = false := rfl
@[simp] theorem clearRegisters_err : (clearRegisters s).err = 0 := rfl
@[simp] theorem clearRegisters_errinfo : (clearRegisters s).errinfo = 0 := rfl
@[simp] theorem clearRegisters_buf : (clearRegisters s).buf = s.buf := rfl
@[simp] theorem clearRegisters_bufBytes : (clearRegisters s).bufBytes = s.bufBytes := rfl
@[simp] theorem clearRegisters_resets : (clearRegisters s).resets = s.resets := rfl
@[simp] theorem clearRegisters_pending : (clearRegisters s).pending = s.pending := rfl
@[simp] theorem clearRegisters_reads : (clearRegisters s).reads = s.reads := rfl

/-! ### `hardReset` -/

@[simp] theorem hardReset_keylen : (hardReset s).keylen = 0 := rfl
@[simp] theorem hardReset_src : (hardReset s).src = 0 := rfl
@[simp] theorem hardReset_len : (hardReset s).len = 0 := rfl
@[simp] theorem hardReset_key : (hardReset s).key = Vector.replicate 8 0 := rfl
@[simp] theorem hardReset_iv : (hardReset s).iv = Vector.replicate 4 0 := rfl
@[simp] theorem hardReset_h : (hardReset s).h = Vector.replicate 8 0 := rfl
@[simp] theorem hardReset_hValid : (hardReset s).hValid = false := rfl
@[simp] theorem hardReset_ks : (hardReset s).ks = Vector.replicate 60 0 := rfl
@[simp] theorem hardReset_ksNk : (hardReset s).ksNk = 0 := rfl
@[simp] theorem hardReset_ksValid : (hardReset s).ksValid = false := rfl
@[simp] theorem hardReset_err : (hardReset s).err = 0 := rfl
@[simp] theorem hardReset_errinfo : (hardReset s).errinfo = 0 := rfl
@[simp] theorem hardReset_buf : (hardReset s).buf = [] := rfl
@[simp] theorem hardReset_bufBytes : (hardReset s).bufBytes = s.bufBytes := rfl
@[simp] theorem hardReset_resets : (hardReset s).resets = s.resets + 1 := rfl
@[simp] theorem hardReset_pending : (hardReset s).pending = s.pending := rfl
@[simp] theorem hardReset_reads : (hardReset s).reads = s.reads := rfl

/-! ### `State.setPending` -/

@[simp] theorem State.setPending_keylen (p : List HostEvent) :
    (s.setPending p).keylen = s.keylen := rfl
@[simp] theorem State.setPending_src (p : List HostEvent) : (s.setPending p).src = s.src := rfl
@[simp] theorem State.setPending_len (p : List HostEvent) : (s.setPending p).len = s.len := rfl
@[simp] theorem State.setPending_key (p : List HostEvent) : (s.setPending p).key = s.key := rfl
@[simp] theorem State.setPending_iv (p : List HostEvent) : (s.setPending p).iv = s.iv := rfl
@[simp] theorem State.setPending_h (p : List HostEvent) : (s.setPending p).h = s.h := rfl
@[simp] theorem State.setPending_hValid (p : List HostEvent) :
    (s.setPending p).hValid = s.hValid := rfl
@[simp] theorem State.setPending_ks (p : List HostEvent) : (s.setPending p).ks = s.ks := rfl
@[simp] theorem State.setPending_ksNk (p : List HostEvent) : (s.setPending p).ksNk = s.ksNk := rfl
@[simp] theorem State.setPending_ksValid (p : List HostEvent) :
    (s.setPending p).ksValid = s.ksValid := rfl
@[simp] theorem State.setPending_err (p : List HostEvent) : (s.setPending p).err = s.err := rfl
@[simp] theorem State.setPending_errinfo (p : List HostEvent) :
    (s.setPending p).errinfo = s.errinfo := rfl
@[simp] theorem State.setPending_buf (p : List HostEvent) : (s.setPending p).buf = s.buf := rfl
@[simp] theorem State.setPending_bufBytes (p : List HostEvent) :
    (s.setPending p).bufBytes = s.bufBytes := rfl
@[simp] theorem State.setPending_resets (p : List HostEvent) :
    (s.setPending p).resets = s.resets := rfl
@[simp] theorem State.setPending_pending (p : List HostEvent) : (s.setPending p).pending = p := rfl
@[simp] theorem State.setPending_reads (p : List HostEvent) :
    (s.setPending p).reads = s.reads := rfl

/-! ### `State.giveHost` -/

@[simp] theorem State.giveHost_keylen (v : Word) : (s.giveHost v).keylen = s.keylen := rfl
@[simp] theorem State.giveHost_src (v : Word) : (s.giveHost v).src = s.src := rfl
@[simp] theorem State.giveHost_len (v : Word) : (s.giveHost v).len = s.len := rfl
@[simp] theorem State.giveHost_key (v : Word) : (s.giveHost v).key = s.key := rfl
@[simp] theorem State.giveHost_iv (v : Word) : (s.giveHost v).iv = s.iv := rfl
@[simp] theorem State.giveHost_h (v : Word) : (s.giveHost v).h = s.h := rfl
@[simp] theorem State.giveHost_hValid (v : Word) : (s.giveHost v).hValid = s.hValid := rfl
@[simp] theorem State.giveHost_ks (v : Word) : (s.giveHost v).ks = s.ks := rfl
@[simp] theorem State.giveHost_ksNk (v : Word) : (s.giveHost v).ksNk = s.ksNk := rfl
@[simp] theorem State.giveHost_ksValid (v : Word) : (s.giveHost v).ksValid = s.ksValid := rfl
@[simp] theorem State.giveHost_err (v : Word) : (s.giveHost v).err = s.err := rfl
@[simp] theorem State.giveHost_errinfo (v : Word) : (s.giveHost v).errinfo = s.errinfo := rfl
@[simp] theorem State.giveHost_buf (v : Word) : (s.giveHost v).buf = s.buf := rfl
@[simp] theorem State.giveHost_bufBytes (v : Word) : (s.giveHost v).bufBytes = s.bufBytes := rfl
@[simp] theorem State.giveHost_resets (v : Word) : (s.giveHost v).resets = s.resets := rfl
@[simp] theorem State.giveHost_pending (v : Word) : (s.giveHost v).pending = s.pending := rfl
@[simp] theorem State.giveHost_reads (v : Word) : (s.giveHost v).reads = v :: s.reads := rfl

/-! ### Updates of the host's side -/

@[simp] theorem State.setPending_setPending (p q : List HostEvent) :
    (s.setPending p).setPending q = s.setPending q := rfl

@[simp] theorem State.setPending_self : s.setPending s.pending = s := rfl

/-- Two states are equal when all their fields are. -/
theorem State.eq_of_fields {s t : State} (h0 : s.keylen = t.keylen) (h1 : s.src = t.src)
    (h2 : s.len = t.len) (h3 : s.key = t.key) (h4 : s.iv = t.iv) (h5 : s.h = t.h)
    (h6 : s.hValid = t.hValid) (h7 : s.ks = t.ks) (h8 : s.ksNk = t.ksNk)
    (h9 : s.ksValid = t.ksValid) (h10 : s.err = t.err) (h11 : s.errinfo = t.errinfo)
    (h12 : s.buf = t.buf) (h13 : s.bufBytes = t.bufBytes) (h14 : s.resets = t.resets)
    (h15 : s.pending = t.pending) (h16 : s.reads = t.reads) : s = t := by
  cases s; cases t; simp_all

end Sys2Proof.Machine
end

