-- ==== Sys2Proof/Laws/Memory.lean ====
section
/-! SUPPORT. What the operations over the buffer memory do: reading back what was written, leaving every
other byte alone, keeping the canonical form and the bound on addresses. -/

namespace Sys2Proof.Machine

/-! ### One byte -/

theorem Memory.get?_put_same (a : Nat) (v : Byte) (m : Memory) : (m.put a v).get? a = some v := by
  induction m with
  | nil => simp [Memory.put, Memory.get?]
  | cons c m ih =>
    obtain ⟨b, w⟩ := c
    by_cases h1 : a < b
    · simp [Memory.put, h1, Memory.get?]
    · by_cases h2 : a = b
      · simp [Memory.put, h2, Memory.get?]
      · simp [Memory.put, h1, h2, Memory.get?, ih]

theorem Memory.get?_put_other {a c : Nat} (h : c ≠ a) (v : Byte) (m : Memory) :
    (m.put a v).get? c = m.get? c := by
  induction m with
  | nil => simp [Memory.put, Memory.get?, h]
  | cons d m ih =>
    obtain ⟨b, w⟩ := d
    by_cases h1 : a < b
    · simp [Memory.put, h1, Memory.get?, h]
    · by_cases h2 : a = b
      · subst h2; simp [Memory.put, Memory.get?, h]
      · simp [Memory.put, h1, h2, Memory.get?, ih]

/-- Reading any address after one byte is written. -/
theorem Memory.get?_put (a c : Nat) (v : Byte) (m : Memory) :
    (m.put a v).get? c = if c = a then some v else m.get? c := by
  split
  · next h => rw [h, Memory.get?_put_same]
  · next h => exact Memory.get?_put_other h v m

/-- Every listed address of a memory in canonical form, behind its first, is above the first. -/
theorem Memory.wf_cons_iff (a : Nat) (v : Byte) (m : Memory) :
    Memory.wf ((a, v) :: m) = true ↔ (∀ c ∈ m, a < c.1) ∧ Memory.wf m = true := by
  induction m generalizing a v with
  | nil => simp [Memory.wf]
  | cons d m ih =>
    obtain ⟨b, w⟩ := d
    rw [Memory.wf, Bool.and_eq_true, decide_eq_true_eq, ih]
    constructor
    · rintro ⟨hab, hb, hm⟩
      refine ⟨?_, (ih b w).2 ⟨hb, hm⟩ |> fun h => ?_⟩
      · intro c hc
        rcases List.mem_cons.1 hc with rfl | hc
        · exact hab
        · exact hab.trans (hb c hc)
      · exact ⟨hb, hm⟩
    · rintro ⟨hall, hb, hm⟩
      exact ⟨hall _ (List.mem_cons_self ..), hb, hm⟩

theorem Memory.mem_put {a : Nat} {v : Byte} {m : Memory} {c : Host.Cell} (h : c ∈ m.put a v) :
    c = (a, v) ∨ c ∈ m := by
  induction m with
  | nil => simpa [Memory.put] using h
  | cons d m ih =>
    obtain ⟨b, w⟩ := d
    rw [Memory.put] at h
    split at h
    · simpa using h
    · split at h
      · rcases List.mem_cons.1 h with h | h
        · exact .inl h
        · exact .inr (List.mem_cons_of_mem _ h)
      · rcases List.mem_cons.1 h with h | h
        · exact .inr (h ▸ List.mem_cons_self ..)
        · exact (ih h).imp_right (List.mem_cons_of_mem _)

/-- A write keeps the canonical form. -/
theorem Memory.put_wf (a : Nat) (v : Byte) (m : Memory) (h : m.wf = true) :
    (m.put a v).wf = true := by
  induction m with
  | nil => rfl
  | cons d m ih =>
    obtain ⟨b, w⟩ := d
    obtain ⟨hb, hm⟩ := (Memory.wf_cons_iff b w m).1 h
    rw [Memory.put]
    split
    · next hab =>
      refine (Memory.wf_cons_iff ..).2 ⟨?_, h⟩
      intro c hc
      rcases List.mem_cons.1 hc with rfl | hc
      · exact hab
      · exact Nat.lt_trans hab (hb c hc)
    · split
      · next hab => exact (Memory.wf_cons_iff ..).2 ⟨hab ▸ hb, hm⟩
      · next h1 h2 =>
        refine (Memory.wf_cons_iff ..).2 ⟨?_, ih hm⟩
        intro c hc
        rcases Memory.mem_put hc with rfl | hc
        · exact Nat.lt_of_le_of_ne (Nat.le_of_not_lt h1) (Ne.symm h2)
        · exact hb c hc

/-! ### A sequence of bytes -/

theorem Memory.putBytes_wf (m : Memory) (a : Nat) (vs : List Byte) (h : m.wf = true) :
    (m.putBytes a vs).wf = true := by
  induction vs generalizing m a with
  | nil => exact h
  | cons v vs ih => exact ih _ _ (Memory.put_wf a v m h)

theorem Memory.mem_putBytes {m : Memory} {a : Nat} {vs : List Byte} {c : Host.Cell}
    (h : c ∈ m.putBytes a vs) : (a ≤ c.1 ∧ c.1 < a + vs.length) ∨ c ∈ m := by
  induction vs generalizing m a with
  | nil => exact .inr h
  | cons v vs ih =>
    rcases ih h with ⟨h1, h2⟩ | h
    · exact .inl ⟨by omega, by simp only [List.length_cons]; omega⟩
    · rcases Memory.mem_put h with rfl | h
      · exact .inl ⟨Nat.le_refl _, by simp⟩
      · exact .inr h

/-- Reading any address after a sequence of bytes is written. -/
theorem Memory.get?_putBytes (m : Memory) (a : Nat) (vs : List Byte) (c : Nat) :
    (m.putBytes a vs).get? c =
      if a ≤ c ∧ c < a + vs.length then some (vs.getD (c - a) 0) else m.get? c := by
  induction vs generalizing m a with
  | nil =>
    have : ¬(a ≤ c ∧ c < a + ([] : List Byte).length) := by simp
    rw [if_neg this]; rfl
  | cons v vs ih =>
    rw [Memory.putBytes, ih, Memory.get?_put]
    simp only [List.length_cons]
    by_cases h1 : a + 1 ≤ c ∧ c < a + 1 + vs.length
    · have h2 : a ≤ c ∧ c < a + (vs.length + 1) := by omega
      rw [if_pos h1, if_pos h2]
      have : c - a = (c - (a + 1)) + 1 := by omega
      rw [this, List.getD_cons_succ]
    · by_cases h3 : c = a
      · subst h3
        rw [if_neg h1, if_pos rfl, if_pos (by omega)]
        simp
      · rw [if_neg h1, if_neg h3, if_neg (by omega)]

/-! ### `MemRead` and `MemWrite` -/

@[simp] theorem memRead_getElem (s : State) (a n i : Nat) (h : i < n) :
    (memRead s a n)[i] = readByte s (a + i) := by
  simp [memRead]

theorem readByte_memWrite {n : Nat} (s : State) (a : Nat) (b : Vector Byte n) (c : Nat) :
    readByte (memWrite s a b) c =
      if h : a ≤ c ∧ c < a + n then b[c - a]'(by omega) else readByte s c := by
  unfold readByte
  rw [memWrite_buf, memWrite_resets, Memory.get?_putBytes]
  simp only [Vector.length_toList]
  split
  · next h =>
    have hlt : c - a < n := by omega
    simp [List.getD_eq_getElem?_getD, hlt]
  · rfl

/-- A byte inside the range written reads as what was written. -/
theorem readByte_memWrite_inside {n : Nat} (s : State) (a : Nat) (b : Vector Byte n) (i : Nat)
    (h : i < n) : readByte (memWrite s a b) (a + i) = b[i] := by
  rw [readByte_memWrite, dif_pos ⟨by omega, by omega⟩]
  simp

/-- Every byte outside the range written reads as before. -/
theorem readByte_memWrite_outside {n : Nat} (s : State) (a : Nat) (b : Vector Byte n) (c : Nat)
    (h : c < a ∨ a + n ≤ c) : readByte (memWrite s a b) c = readByte s c := by
  rw [readByte_memWrite, dif_neg (by omega)]

/-- `MemRead` after `MemWrite` of the same range gives what was written. -/
theorem memRead_memWrite_same {n : Nat} (s : State) (a : Nat) (b : Vector Byte n) :
    memRead (memWrite s a b) a n = b := by
  ext i h
  rw [memRead_getElem, readByte_memWrite_inside]

/-- `MemRead` of a range apart from the one written reads as before. -/
theorem memRead_memWrite_apart {n : Nat} (s : State) (a : Nat) (b : Vector Byte n) (c k : Nat)
    (h : c + k ≤ a ∨ a + n ≤ c) : memRead (memWrite s a b) c k = memRead s c k := by
  ext i hi
  rw [memRead_getElem, memRead_getElem, readByte_memWrite_outside _ _ _ _ (by omega)]

/-- What a byte reads as depends on `BUF` and the reset number alone. -/
theorem readByte_congr {s t : State} (hb : s.buf = t.buf) (hr : s.resets = t.resets) (a : Nat) :
    readByte s a = readByte t a := by
  unfold readByte; rw [hb, hr]

theorem memRead_congr {s t : State} (hb : s.buf = t.buf) (hr : s.resets = t.resets) (a n : Nat) :
    memRead s a n = memRead t a n := by
  ext i h
  rw [memRead_getElem, memRead_getElem, readByte_congr hb hr]

end Sys2Proof.Machine
end

