-- ==== Sys2Proof/Laws/Exec.lean ====
section
/-! SUPPORT. What each meaning, and taking a command word, can do: if it answers a next state, then one of
the cases listed holds. Later proofs cite these and unfold no meaning. -/

namespace Sys2Proof.Machine

variable {s t : State}

/-! ### The latch -/

theorem unlessLatched_of_err {b : Result} (h : s.err ≠ 0) : unlessLatched s b = .next s := if_neg h

theorem unlessLatched_of_clean {b : Result} (h : s.err = 0) : unlessLatched s b = b := if_pos h

/-- What a gated command can answer: dropped, or its body. -/
theorem unlessLatched_cases {b : Result} (h : unlessLatched s b = .next t) :
    (s.err ≠ 0 ∧ t = s) ∨ (s.err = 0 ∧ b = .next t) := by
  by_cases he : s.err = 0
  · exact .inr ⟨he, by rwa [unlessLatched_of_clean he] at h⟩
  · rw [unlessLatched_of_err he] at h
    exact .inl ⟨he, by cases h; rfl⟩

@[simp] theorem errorCode_ne_zero (e : EngineError) : errorCode e ≠ 0 := by cases e <;> decide

theorem raise_next {e : EngineError} {info : Word} (h : raise e info s = .next t) :
    t = latchError e info s := by cases h; rfl

/-! ### Operand checks -/

theorem outOfRange_iff (n : Nat) : outOfRange s n = true ↔ s.bufBytes < s.src.toNat + n := by
  simp [outOfRange]

theorem badLength_iff : badLength s = true ↔ s.len.toNat % 16 ≠ 0 := by simp [badLength]

theorem legalKeyLength_iff :
    legalKeyLength s = true ↔ s.keylen = 16 ∨ s.keylen = 24 ∨ s.keylen = 32 := by
  simp [legalKeyLength, wfKeyLength, or_assoc]

/-- A legal key length is `4 * Nk` bytes with `Nk` 4, 6 or 8. -/
theorem keyWordCount_of_legal (h : legalKeyLength s = true) :
    (keyWordCount s = 4 ∨ keyWordCount s = 6 ∨ keyWordCount s = 8) ∧
      s.keylen.toNat = 4 * keyWordCount s := by
  rcases legalKeyLength_iff.1 h with h | h | h <;> simp [keyWordCount, h]

/-! ### The commands -/

theorem execNop_cases (h : execNop s = .next t) : t = s := by cases h; rfl

theorem execClear_cases (h : execClear s = .next t) : t = clearRegisters s := by cases h; rfl

theorem execShaInit_cases (h : execShaInit s = .next t) :
    (s.err ≠ 0 ∧ t = s) ∨ (s.err = 0 ∧ t = (s.setHash hInit).markHashValid) := by
  rcases unlessLatched_cases h with h | ⟨he, h⟩
  · exact .inl h
  · exact .inr ⟨he, by cases h; rfl⟩

theorem execShaBlock_cases (h : execShaBlock s = .next t) :
    (s.err ≠ 0 ∧ t = s) ∨
    (s.err = 0 ∧ s.hValid = false ∧ t = latchError .hashNotInitialised 0 s) ∨
    (s.err = 0 ∧ s.hValid = true ∧ s.bufBytes < s.src.toNat + 64 ∧
      t = latchError .bufferRange s.src s) ∨
    (s.err = 0 ∧ s.hValid = true ∧ s.src.toNat + 64 ≤ s.bufBytes ∧
      t = s.setHash (compress s.h (memRead s s.src.toNat 64))) := by
  rcases unlessLatched_cases h with h | ⟨he, h⟩
  · exact .inl h
  · by_cases hv : s.hValid = false
    · rw [if_pos hv] at h; exact .inr (.inl ⟨he, hv, raise_next h⟩)
    · rw [if_neg hv] at h
      have hv' : s.hValid = true := by simpa using hv
      by_cases hr : outOfRange s 64 = true
      · rw [if_pos hr] at h
        exact .inr (.inr (.inl ⟨he, hv', (outOfRange_iff _).1 hr, raise_next h⟩))
      · rw [if_neg hr] at h
        rw [outOfRange_iff] at hr
        exact .inr (.inr (.inr ⟨he, hv', by omega, by cases h; rfl⟩))

theorem execAesKeyexp_cases (h : execAesKeyexp s = .next t) :
    (s.err ≠ 0 ∧ t = s) ∨
    (s.err = 0 ∧ legalKeyLength s = false ∧ t = latchError .invalidKeyLength s.keylen s) ∨
    (s.err = 0 ∧ legalKeyLength s = true ∧ t = expandIntoKs s) := by
  rcases unlessLatched_cases h with h | ⟨he, h⟩
  · exact .inl h
  · by_cases hk : legalKeyLength s = false
    · rw [if_pos hk] at h; exact .inr (.inl ⟨he, hk, raise_next h⟩)
    · rw [if_neg hk] at h
      exact .inr (.inr ⟨he, by simpa using hk, by cases h; rfl⟩)

theorem execAesDecblk_cases (h : execAesDecblk s = .next t) :
    (s.err ≠ 0 ∧ t = s) ∨
    (s.err = 0 ∧ s.ksValid = false ∧ t = latchError .keyNotExpanded 0 s) ∨
    (s.err = 0 ∧ s.ksValid = true ∧ s.bufBytes < s.src.toNat + 16 ∧
      t = latchError .bufferRange s.src s) ∨
    (s.err = 0 ∧ s.ksValid = true ∧ s.src.toNat + 16 ≤ s.bufBytes ∧
      t = memWrite s s.src.toNat (decryptBlock s.ks s.ksNk.toNat (memRead s s.src.toNat 16))) := by
  rcases unlessLatched_cases h with h | ⟨he, h⟩
  · exact .inl h
  · by_cases hv : s.ksValid = false
    · rw [if_pos hv] at h; exact .inr (.inl ⟨he, hv, raise_next h⟩)
    · rw [if_neg hv] at h
      have hv' : s.ksValid = true := by simpa using hv
      by_cases hr : outOfRange s 16 = true
      · rw [if_pos hr] at h
        exact .inr (.inr (.inl ⟨he, hv', (outOfRange_iff _).1 hr, raise_next h⟩))
      · rw [if_neg hr] at h
        rw [outOfRange_iff] at hr
        exact .inr (.inr (.inr ⟨he, hv', by omega, by cases h; rfl⟩))

theorem execCbcDecrypt_cases (h : execCbcDecrypt s = .next t) :
    (s.err ≠ 0 ∧ t = s) ∨
    (s.err = 0 ∧ s.len.toNat % 16 ≠ 0 ∧ t = latchError .invalidLength s.len s) ∨
    (s.err = 0 ∧ s.len.toNat % 16 = 0 ∧ legalKeyLength s = false ∧
      t = latchError .invalidKeyLength s.keylen s) ∨
    (s.err = 0 ∧ s.len.toNat % 16 = 0 ∧ legalKeyLength s = true ∧
      s.bufBytes < s.src.toNat + s.len.toNat ∧ t = latchError .bufferRange s.src s) ∨
    (s.err = 0 ∧ s.len.toNat % 16 = 0 ∧ legalKeyLength s = true ∧
      s.src.toNat + s.len.toNat ≤ s.bufBytes ∧
      t = cbcLoop (s.len.toNat / 16) s.src.toNat (ivBytes s) (expandIntoKs s)) := by
  rcases unlessLatched_cases h with h | ⟨he, h⟩
  · exact .inl h
  · by_cases hl : badLength s = true
    · rw [if_pos hl] at h; exact .inr (.inl ⟨he, badLength_iff.1 hl, raise_next h⟩)
    · rw [if_neg hl] at h
      have hl' : s.len.toNat % 16 = 0 := by rw [badLength_iff] at hl; omega
      by_cases hk : legalKeyLength s = false
      · rw [if_pos hk] at h; exact .inr (.inr (.inl ⟨he, hl', hk, raise_next h⟩))
      · rw [if_neg hk] at h
        have hk' : legalKeyLength s = true := by simpa using hk
        by_cases hr : outOfRange s s.len.toNat = true
        · rw [if_pos hr] at h
          exact .inr (.inr (.inr (.inl ⟨he, hl', hk', (outOfRange_iff _).1 hr, raise_next h⟩)))
        · rw [if_neg hr] at h
          rw [outOfRange_iff] at hr
          exact .inr (.inr (.inr (.inr ⟨he, hl', hk', by omega, by cases h; rfl⟩)))

/-! ### The key expansion, field by field -/

@[simp] theorem expandIntoKs_keylen : (expandIntoKs s).keylen = s.keylen :=
  State.setSchedule_keylen ..
@[simp] theorem expandIntoKs_src : (expandIntoKs s).src = s.src :=
  State.setSchedule_src ..
@[simp] theorem expandIntoKs_len : (expandIntoKs s).len = s.len :=
  State.setSchedule_len ..
@[simp] theorem expandIntoKs_key : (expandIntoKs s).key = s.key :=
  State.setSchedule_key ..
@[simp] theorem expandIntoKs_iv : (expandIntoKs s).iv = s.iv :=
  State.setSchedule_iv ..
@[simp] theorem expandIntoKs_h : (expandIntoKs s).h = s.h :=
  State.setSchedule_h ..
@[simp] theorem expandIntoKs_hValid : (expandIntoKs s).hValid = s.hValid :=
  State.setSchedule_hValid ..
@[simp] theorem expandIntoKs_ks : (expandIntoKs s).ks =
    scheduleStore (expandKey (keyBytes s (keyWordCount s)) (keyWordCount s)) :=
  State.setSchedule_ks ..
@[simp] theorem expandIntoKs_ksNk : (expandIntoKs s).ksNk = BitVec.ofNat 4 (keyWordCount s) :=
  State.setSchedule_ksNk ..
@[simp] theorem expandIntoKs_ksValid : (expandIntoKs s).ksValid = true :=
  State.setSchedule_ksValid ..
@[simp] theorem expandIntoKs_err : (expandIntoKs s).err = s.err :=
  State.setSchedule_err ..
@[simp] theorem expandIntoKs_errinfo : (expandIntoKs s).errinfo = s.errinfo :=
  State.setSchedule_errinfo ..
@[simp] theorem expandIntoKs_buf : (expandIntoKs s).buf = s.buf :=
  State.setSchedule_buf ..
@[simp] theorem expandIntoKs_bufBytes : (expandIntoKs s).bufBytes = s.bufBytes :=
  State.setSchedule_bufBytes ..
@[simp] theorem expandIntoKs_resets : (expandIntoKs s).resets = s.resets :=
  State.setSchedule_resets ..
@[simp] theorem expandIntoKs_pending : (expandIntoKs s).pending = s.pending :=
  State.setSchedule_pending ..
@[simp] theorem expandIntoKs_reads : (expandIntoKs s).reads = s.reads :=
  State.setSchedule_reads ..

/-! ### The forward direction of the commands that check something -/

theorem execShaBlock_of_ready (he : s.err = 0) (hv : s.hValid = true)
    (hr : s.src.toNat + 64 ≤ s.bufBytes) :
    execShaBlock s = .next (s.setHash (compress s.h (memRead s s.src.toNat 64))) := by
  have hr' : ¬ outOfRange s 64 = true := by rw [outOfRange_iff]; omega
  rw [execShaBlock, unlessLatched_of_clean he, if_neg (by simp [hv]), if_neg hr']

theorem execAesKeyexp_of_legal (he : s.err = 0) (hk : legalKeyLength s = true) :
    execAesKeyexp s = .next (expandIntoKs s) := by
  rw [execAesKeyexp, unlessLatched_of_clean he, if_neg (by simp [hk])]

theorem execAesDecblk_of_ready (he : s.err = 0) (hv : s.ksValid = true)
    (hr : s.src.toNat + 16 ≤ s.bufBytes) :
    execAesDecblk s = .next
      (memWrite s s.src.toNat (decryptBlock s.ks s.ksNk.toNat (memRead s s.src.toNat 16))) := by
  have hr' : ¬ outOfRange s 16 = true := by rw [outOfRange_iff]; omega
  rw [execAesDecblk, unlessLatched_of_clean he, if_neg (by simp [hv]), if_neg hr']

theorem execCbcDecrypt_of_ready (he : s.err = 0) (hl : s.len.toNat % 16 = 0)
    (hk : legalKeyLength s = true) (hr : s.src.toNat + s.len.toNat ≤ s.bufBytes) :
    execCbcDecrypt s = .next
      (cbcLoop (s.len.toNat / 16) s.src.toNat (ivBytes s) (expandIntoKs s)) := by
  have hl' : ¬ badLength s = true := by rw [badLength_iff]; omega
  have hr' : ¬ outOfRange s s.len.toNat = true := by rw [outOfRange_iff]; omega
  rw [execCbcDecrypt, unlessLatched_of_clean he, if_neg hl', if_neg (by simp [hk]), if_neg hr']

/-! ### Taking a command word -/

theorem takeCommand_cases {v : Word} (h : takeCommand v s = .next t) :
    (∃ i, decode v = .command i ∧ exec i s = .next t) ∨
    (∃ w, decode v = .illegalCommand w ∧
      ((s.err ≠ 0 ∧ t = s) ∨ (s.err = 0 ∧ t = latchError .illegalCommand w s))) := by
  unfold takeCommand at h
  split at h
  · next i hd => exact .inl ⟨i, hd, h⟩
  · next w hd =>
    refine .inr ⟨w, hd, ?_⟩
    rcases unlessLatched_cases h with h | ⟨he, h⟩
    · exact .inl h
    · exact .inr ⟨he, raise_next h⟩

end Sys2Proof.Machine
end

