-- ==== Sys2Proof/Laws/Access.lean ====
section
/-! SUPPORT. What a host access and a step can do. -/

namespace Sys2Proof.Machine

variable {s t : State}

/-! ### The step -/

/-- With nothing pending the engine waits. -/
theorem step_of_idle (h : s.pending = []) : step s = .next s := by
  unfold step nextEvent; rw [h]

/-- With an event pending the step is that event. -/
theorem step_of_pending {e : HostEvent} {rest : List HostEvent} (h : s.pending = e :: rest) :
    step s = hostAccess e (s.setPending rest) := by
  unfold step nextEvent; rw [h]

/-- A write to offset 0 takes a command word. -/
theorem hostAccess_writeCmd (v : Word) (s : State) :
    hostAccess (.write 0x000 v) s = takeCommand v s := rfl

theorem step_of_command {v : Word} {rest : List HostEvent} (h : s.pending = .write 0x000 v :: rest) :
    step s = takeCommand v (s.setPending rest) := by
  rw [step_of_pending h, hostAccess_writeCmd]

/-! ### The register map -/

/-- An offset is a multiple of 4 (rule R65). -/
theorem offset_aligned (off : Offset) : off.val.toNat % 4 = 0 := by
  simpa [wfOffset] using off.property

theorem ite_eq_cases {α : Type} {c : Prop} [Decidable c] {x y z : α}
    (h : (if c then x else y) = z) : (c ∧ x = z) ∨ (¬ c ∧ y = z) := by
  split at h
  · exact .inl ⟨‹_›, h⟩
  · exact .inr ⟨‹_›, h⟩

/-- What the map of `spec/10_state.md` rule R30 can answer, with the offsets each answer is given at. -/
theorem hostMap_cases {b : Nat} {off : Offset} {x : HostTarget} (h : hostMap b off = x) :
    let o := off.val.toNat
    (o = 0x000 ∧ x = .cmd) ∨ (o = 0x004 ∧ x = .status) ∨ (o = 0x008 ∧ x = .err) ∨
    (o = 0x00C ∧ x = .errinfo) ∨ (o = 0x010 ∧ x = .keylen) ∨ (o = 0x014 ∧ x = .src) ∨
    (o = 0x018 ∧ x = .len) ∨
    ((0x020 ≤ o ∧ o < 0x040) ∧ x = .key (Fin.ofNat 8 ((o - 0x020) / 4))) ∨
    ((0x040 ≤ o ∧ o < 0x050) ∧ x = .iv (Fin.ofNat 4 ((o - 0x040) / 4))) ∨
    ((0x060 ≤ o ∧ o < 0x080) ∧ x = .h (Fin.ofNat 8 ((o - 0x060) / 4))) ∨
    ((0x1000 ≤ o ∧ o < 0x1000 + b) ∧ x = .window (o - 0x1000)) ∨
    ((o ≠ 0x000 ∧ o ≠ 0x004 ∧ o ≠ 0x008 ∧ o ≠ 0x00C ∧ o ≠ 0x010 ∧ o ≠ 0x014 ∧ o ≠ 0x018 ∧
        ¬ (0x020 ≤ o ∧ o < 0x050) ∧ ¬ (0x060 ≤ o ∧ o < 0x080) ∧
        ¬ (0x1000 ≤ o ∧ o < 0x1000 + b)) ∧ x = .nothing) := by
  unfold hostMap at h
  dsimp only at h ⊢
  generalize off.val.toNat = o at h ⊢
  rcases ite_eq_cases h with ⟨h0, h⟩ | ⟨n0, h⟩
  · exact .inl ⟨h0, h.symm⟩
  rcases ite_eq_cases h with ⟨h0, h⟩ | ⟨n1, h⟩
  · exact .inr (.inl ⟨h0, h.symm⟩)
  rcases ite_eq_cases h with ⟨h0, h⟩ | ⟨n2, h⟩
  · exact .inr (.inr (.inl ⟨h0, h.symm⟩))
  rcases ite_eq_cases h with ⟨h0, h⟩ | ⟨n3, h⟩
  · exact .inr (.inr (.inr (.inl ⟨h0, h.symm⟩)))
  rcases ite_eq_cases h with ⟨h0, h⟩ | ⟨n4, h⟩
  · exact .inr (.inr (.inr (.inr (.inl ⟨h0, h.symm⟩))))
  rcases ite_eq_cases h with ⟨h0, h⟩ | ⟨n5, h⟩
  · exact .inr (.inr (.inr (.inr (.inr (.inl ⟨h0, h.symm⟩)))))
  rcases ite_eq_cases h with ⟨h0, h⟩ | ⟨n6, h⟩
  · exact .inr (.inr (.inr (.inr (.inr (.inr (.inl ⟨h0, h.symm⟩))))))
  rcases ite_eq_cases h with ⟨h0, h⟩ | ⟨n7, h⟩
  · exact .inr (.inr (.inr (.inr (.inr (.inr (.inr (.inl ⟨h0, h.symm⟩)))))))
  rcases ite_eq_cases h with ⟨h0, h⟩ | ⟨n8, h⟩
  · exact .inr (.inr (.inr (.inr (.inr (.inr (.inr (.inr (.inl ⟨h0, h.symm⟩))))))))
  rcases ite_eq_cases h with ⟨h0, h⟩ | ⟨n9, h⟩
  · exact .inr (.inr (.inr (.inr (.inr (.inr (.inr (.inr (.inr (.inl ⟨h0, h.symm⟩)))))))))
  rcases ite_eq_cases h with ⟨h0, h⟩ | ⟨n10, h⟩
  · exact .inr (.inr (.inr (.inr (.inr (.inr (.inr (.inr (.inr (.inr (.inl ⟨h0, h.symm⟩))))))))))
  · exact .inr (.inr (.inr (.inr (.inr (.inr (.inr (.inr (.inr (.inr (.inr
      ⟨⟨n0, n1, n2, n3, n4, n5, n6, by omega, n9, n10⟩, h.symm⟩))))))))))

/-- `CMD` stands at offset 0 alone. -/
theorem hostMap_cmd {b : Nat} {off : Offset} (h : hostMap b off = .cmd) : off.val.toNat = 0 := by
  rcases hostMap_cases h with h | h | h | h | h | h | h | h | h | h | h | h
  · exact h.1
  all_goals exact absurd h.2 (by simp)

/-- The window word a map entry names is the offset less `0x1000`, inside `BUF`. -/
theorem hostMap_window {b a : Nat} {off : Offset} (h : hostMap b off = .window a) :
    off.val.toNat = 0x1000 + a ∧ a < b := by
  rcases hostMap_cases h with h | h | h | h | h | h | h | h | h | h | h | h
  case inr.inr.inr.inr.inr.inr.inr.inr.inr.inr.inl =>
    obtain ⟨h1, h2⟩ := h
    injection h2
    omega
  all_goals exact absurd h.2 (by simp)

/-- What a host write can do. -/
theorem hostWrite32_cases {off : Offset} {v : Word} (h : hostWrite32 off v s = .next t) :
    (off.val.toNat = 0 ∧ takeCommand v s = .next t) ∨
    t = s ∨ t = s.setKeylen v ∨ t = s.setSrc v ∨ t = s.setLen v ∨
    (∃ i, t = s.setKeyWord i v) ∨ (∃ i, t = s.setIvWord i v) ∨
    (∃ a, off.val.toNat = 0x1000 + a ∧ a < s.bufBytes ∧ t = memWrite s a (bytesBe32 v)) := by
  unfold hostWrite32 at h
  split at h
  · next hm => exact .inl ⟨hostMap_cmd hm, h⟩
  · cases h; exact .inr (.inl rfl)
  · cases h; exact .inr (.inl rfl)
  · cases h; exact .inr (.inl rfl)
  · cases h; exact .inr (.inr (.inl rfl))
  · cases h; exact .inr (.inr (.inr (.inl rfl)))
  · cases h; exact .inr (.inr (.inr (.inr (.inl rfl))))
  · next i _ => cases h; exact .inr (.inr (.inr (.inr (.inr (.inl ⟨i, rfl⟩)))))
  · next i _ => cases h; exact .inr (.inr (.inr (.inr (.inr (.inr (.inl ⟨i, rfl⟩))))))
  · cases h; exact .inr (.inl rfl)
  · next a hm =>
    obtain ⟨h1, h2⟩ := hostMap_window hm
    cases h
    exact .inr (.inr (.inr (.inr (.inr (.inr (.inr ⟨a, h1, h2, rfl⟩))))))
  · cases h; exact .inr (.inl rfl)

/-- What one host event can do. -/
theorem hostAccess_cases {e : HostEvent} (h : hostAccess e s = .next t) :
    (∃ off : Offset, e = .read off.val ∧ t = s.giveHost (hostRead32 off s)) ∨
    (∃ (off : Offset) (v : Word), e = .write off.val v ∧ hostWrite32 off v s = .next t) ∨
    (e = .hardReset ∧ t = hardReset s) := by
  cases e with
  | read off =>
    simp only [hostAccess] at h
    split at h
    · next hw => cases h; exact .inl ⟨⟨off, hw⟩, rfl, rfl⟩
    · cases h
  | write off v =>
    simp only [hostAccess] at h
    split at h
    · next hw => exact .inr (.inl ⟨⟨off, hw⟩, v, rfl, h⟩)
    · cases h
  | hardReset => cases h; exact .inr (.inr ⟨rfl, rfl⟩)

/-- What a step can do: wait, or perform the host's first event. -/
theorem step_cases (h : step s = .next t) :
    (s.pending = [] ∧ t = s) ∨
    (∃ e rest, s.pending = e :: rest ∧ hostAccess e (s.setPending rest) = .next t) := by
  cases hp : s.pending with
  | nil => rw [step_of_idle hp] at h; cases h; exact .inl ⟨rfl, rfl⟩
  | cons e rest => rw [step_of_pending hp] at h; exact .inr ⟨e, rest, rfl, h⟩

/-- An invariant is kept by every step when every operation a step can make keeps it. -/
theorem step_preserves {P : State → Prop}
    (hPending : ∀ s p, P s → P (s.setPending p)) (hRead : ∀ s v, P s → P (s.giveHost v))
    (hKeylen : ∀ s v, P s → P (s.setKeylen v)) (hSrc : ∀ s v, P s → P (s.setSrc v))
    (hLen : ∀ s v, P s → P (s.setLen v)) (hKey : ∀ s i v, P s → P (s.setKeyWord i v))
    (hIv : ∀ s i v, P s → P (s.setIvWord i v))
    (hWindow : ∀ s a v, a < s.bufBytes → a % 4 = 0 → P s → P (memWrite s a (bytesBe32 v)))
    (hReset : ∀ s, P s → P (hardReset s))
    (hIllegal : ∀ s w, P s → s.err = 0 → P (latchError .illegalCommand w s))
    (hExec : ∀ i s t, P s → exec i s = .next t → P t)
    (hs : P s) (h : step s = .next t) : P t := by
  rcases step_cases h with ⟨-, rfl⟩ | ⟨e, rest, -, h⟩
  · exact hs
  · have hs' := hPending s rest hs
    rcases hostAccess_cases h with ⟨off, -, rfl⟩ | ⟨off, v, -, h⟩ | ⟨-, rfl⟩
    · exact hRead _ _ hs'
    · rcases hostWrite32_cases h with
        ⟨-, h⟩ | rfl | rfl | rfl | rfl | ⟨i, rfl⟩ | ⟨i, rfl⟩ | ⟨a, ha, hb, rfl⟩
      · rcases takeCommand_cases h with ⟨i, -, h⟩ | ⟨w, -, ⟨-, rfl⟩ | ⟨he, rfl⟩⟩
        · exact hExec _ _ _ hs' h
        · exact hs'
        · exact hIllegal _ _ hs' he
      · exact hs'
      · exact hKeylen _ _ hs'
      · exact hSrc _ _ hs'
      · exact hLen _ _ hs'
      · exact hKey _ _ _ hs'
      · exact hIv _ _ _ hs'
      · refine hWindow _ _ _ hb ?_ hs'
        have := offset_aligned off
        omega
    · exact hReset _ hs'

end Sys2Proof.Machine
end

