-- ==== Sys2Proof/Laws/Bits.lean ====
section
/-! SUPPORT. The conversions between bytes and words (`spec/00_scope.md` rule R11) undo each other, and
what `be32At` and `wordBytes` hold at each index. -/

namespace Sys2Proof.Machine

theorem be32_toNat (b0 b1 b2 b3 : Byte) :
    (be32 b0 b1 b2 b3).toNat =
      2 ^ 24 * b0.toNat + 2 ^ 16 * b1.toNat + 2 ^ 8 * b2.toNat + b3.toNat := by
  have h0 := b0.isLt
  have h1 := b1.isLt
  have h2 := b2.isLt
  have h3 := b3.isLt
  simp only [be32, BitVec.toNat_ofNat]
  omega

/-- The byte of a word that starts at bit `k`. -/
theorem extract_byte_toNat (w : Word) (k : Nat) :
    (w.extractLsb' k 8).toNat = w.toNat / 2 ^ k % 256 := by
  simp [BitVec.extractLsb'_toNat, Nat.shiftRight_eq_div_pow]

/-- Byte `k` of a packed word, from the bytes as numbers. -/
theorem extract_be32 (b0 b1 b2 b3 b : Byte) (k : Nat)
    (h : (2 ^ 24 * b0.toNat + 2 ^ 16 * b1.toNat + 2 ^ 8 * b2.toNat + b3.toNat) / 2 ^ k % 256 =
      b.toNat) : (be32 b0 b1 b2 b3).extractLsb' k 8 = b :=
  BitVec.eq_of_toNat_eq (by rw [extract_byte_toNat, be32_toNat, h])

theorem bytesBe32_eq {w : Word} {a b c d : Byte} (h0 : w.extractLsb' 24 8 = a)
    (h1 : w.extractLsb' 16 8 = b) (h2 : w.extractLsb' 8 8 = c) (h3 : w.extractLsb' 0 8 = d) :
    bytesBe32 w = #v[a, b, c, d] := by
  subst h0 h1 h2 h3; rfl

/-- The bytes of a packed word are the bytes it was packed from. -/
@[simp] theorem bytesBe32_be32 (b0 b1 b2 b3 : Byte) :
    bytesBe32 (be32 b0 b1 b2 b3) = #v[b0, b1, b2, b3] := by
  have h0 := b0.isLt
  have h1 := b1.isLt
  have h2 := b2.isLt
  have h3 := b3.isLt
  exact bytesBe32_eq (extract_be32 _ _ _ _ _ _ (by omega)) (extract_be32 _ _ _ _ _ _ (by omega))
    (extract_be32 _ _ _ _ _ _ (by omega)) (extract_be32 _ _ _ _ _ _ (by omega))

/-- A word packed from its own bytes is the word. -/
@[simp] theorem be32_bytesBe32 (w : Word) :
    be32 (bytesBe32 w)[0] (bytesBe32 w)[1] (bytesBe32 w)[2] (bytesBe32 w)[3] = w := by
  apply BitVec.eq_of_toNat_eq
  rw [be32_toNat]
  have hw := w.isLt
  simp only [bytesBe32, Vector.getElem_mk, List.getElem_toArray, List.getElem_cons_zero,
    List.getElem_cons_succ, extract_byte_toNat]
  omega

/-- Byte `k` of a sequence of words is byte `k mod 4` of word `k / 4` (rule R23). -/
theorem wordBytes_getD (ws : List Word) (k : Nat) (h : k < 4 * ws.length) :
    (wordBytes ws).getD k 0 = (bytesBe32 (ws.getD (k / 4) 0)).toList.getD (k % 4) 0 := by
  induction ws generalizing k with
  | nil => simp at h
  | cons w ws ih =>
    have hl : (bytesBe32 w).toList.length = 4 := by simp
    have e : wordBytes (w :: ws) = (bytesBe32 w).toList ++ wordBytes ws := rfl
    rw [e]
    by_cases hk : k < 4
    · rw [List.getD_append _ _ _ _ (by omega)]
      have h1 : k / 4 = 0 := by omega
      have h2 : k % 4 = k := by omega
      rw [h1, h2]; rfl
    · rw [List.getD_append_right _ _ _ _ (by omega), hl,
        ih (k - 4) (by simp only [List.length_cons] at h; omega)]
      have h1 : k / 4 = (k - 4) / 4 + 1 := by omega
      have h2 : (k - 4) % 4 = k % 4 := by omega
      rw [h1, h2, List.getD_cons_succ]

@[simp] theorem wordBytes_length (ws : List Word) : (wordBytes ws).length = 4 * ws.length := by
  induction ws with
  | nil => rfl
  | cons w ws ih =>
    have e : wordBytes (w :: ws) = (bytesBe32 w).toList ++ wordBytes ws := rfl
    rw [e, List.length_append, ih, Vector.length_toList, List.length_cons]; omega

/-- Packing the bytes of a sequence of words gives the words back. -/
theorem be32At_wordBytes (ws : List Word) (i : Nat) (h : i < ws.length) :
    be32At (wordBytes ws) (4 * i) = ws.getD i 0 := by
  unfold be32At
  rw [wordBytes_getD _ _ (by omega), wordBytes_getD _ _ (by omega), wordBytes_getD _ _ (by omega),
    wordBytes_getD _ _ (by omega)]
  have h0 : 4 * i / 4 = i := by omega
  have h1 : (4 * i + 1) / 4 = i := by omega
  have h2 : (4 * i + 2) / 4 = i := by omega
  have h3 : (4 * i + 3) / 4 = i := by omega
  have m0 : 4 * i % 4 = 0 := by omega
  have m1 : (4 * i + 1) % 4 = 1 := by omega
  have m2 : (4 * i + 2) % 4 = 2 := by omega
  have m3 : (4 * i + 3) % 4 = 3 := by omega
  rw [h0, h1, h2, h3, m0, m1, m2, m3]
  exact be32_bytesBe32 _

end Sys2Proof.Machine
end

