-- ==== Sys2Proof/Laws/AesKey.lean ====
section
/-! SUPPORT. What the key schedule holds at each index. -/

namespace Sys2Proof.Machine

theorem expandLoop_length (nk n i : Nat) (w : List Word) :
    (expandLoop nk n i w).length = n + w.length := by
  induction n generalizing i w with
  | zero => simp [expandLoop]
  | succ n ih => rw [expandLoop, ih, List.length_cons]; omega

/-- The loop leaves the words there were. -/
theorem expandLoop_drop (nk n i : Nat) (w : List Word) : (expandLoop nk n i w).drop n = w := by
  induction n generalizing i w with
  | zero => rfl
  | succ n ih =>
    have h := congrArg (List.drop 1) (ih (i + 1)
      ((w.getD (nk - 1) 0 ^^^ scheduleTemp nk i (w.getD 0 0)) :: w))
    rw [List.drop_drop] at h
    rw [expandLoop, h]
    rfl

/-- Every word the loop adds is the recurrence of rule R146 over the words before it (newest first). -/
theorem expandLoop_getD (nk n i : Nat) (w : List Word) (k : Nat) (hk : k < n) :
    (expandLoop nk n i w).getD k 0 =
      ((expandLoop nk n i w).drop (k + 1)).getD (nk - 1) 0 ^^^
        scheduleTemp nk (i + (n - 1 - k)) (((expandLoop nk n i w).drop (k + 1)).getD 0 0) := by
  induction n generalizing i w with
  | zero => omega
  | succ n ih =>
    rw [expandLoop]
    by_cases h : k < n
    · rw [ih (i + 1) _ h]
      have e : i + 1 + (n - 1 - k) = i + (n + 1 - 1 - k) := by omega
      rw [e]
    · obtain rfl : k = n := by omega
      have hd := expandLoop_drop nk k (i + 1)
        ((w.getD (nk - 1) 0 ^^^ scheduleTemp nk i (w.getD 0 0)) :: w)
      have h0 := congrArg (fun l => l.getD 0 0) hd
      have e : k + 1 - 1 - k = 0 := by omega
      rw [← List.drop_drop, hd, e]
      simpa using h0

theorem getD_reverse (l : List Word) (i : Nat) (h : i < l.length) :
    l.reverse.getD i 0 = l.getD (l.length - 1 - i) 0 := by
  rw [List.getD_eq_getElem _ _ (by simpa using h), List.getD_eq_getElem _ _ (by omega),
    List.getElem_reverse]

/-- The loop of `expandKey`, newest word first. -/
def scheduleLoop (key : List Byte) (nk : Nat) : List Word :=
  expandLoop nk (scheduleWords nk - nk) nk
    ((List.range nk).map fun i => be32At key (4 * i)).reverse

theorem scheduleLoop_length (key : List Byte) (nk : Nat) :
    (scheduleLoop key nk).length = scheduleWords nk := by
  simp only [scheduleLoop, expandLoop_length, List.length_reverse, List.length_map, List.length_range,
    scheduleWords]
  omega

theorem expandKey_eq (key : List Byte) (nk : Nat) : expandKey key nk = (scheduleLoop key nk).reverse := rfl

theorem expandKey_length (key : List Byte) (nk : Nat) :
    (expandKey key nk).length = scheduleWords nk := by
  rw [expandKey_eq, List.length_reverse, scheduleLoop_length]

/-- The first `nk` words are the key (rule R146). -/
theorem expandKey_key (key : List Byte) (nk i : Nat) (h : i < nk) :
    (expandKey key nk).getD i 0 = be32At key (4 * i) := by
  have hs : i < scheduleWords nk := by unfold scheduleWords; omega
  rw [expandKey_eq, getD_reverse _ _ (by rw [scheduleLoop_length]; exact hs), scheduleLoop_length]
  have hd := congrArg (fun l => l.getD (nk - 1 - i) 0) (expandLoop_drop nk (scheduleWords nk - nk) nk
    ((List.range nk).map fun i => be32At key (4 * i)).reverse)
  simp only [List.getD_eq_getElem?_getD, List.getElem?_drop] at hd ⊢
  have e : scheduleWords nk - 1 - i = scheduleWords nk - nk + (nk - 1 - i) := by
    unfold scheduleWords; omega
  rw [e]
  refine hd.trans ?_
  rw [List.getElem?_reverse (by simp; omega)]
  have e2 : nk - 1 - (nk - 1 - i) = i := by omega
  simp [e2, h]

/-- Every further word (rule R146). -/
theorem expandKey_next (key : List Byte) (nk i : Nat) (h0 : 0 < nk) (h : nk ≤ i)
    (hi : i < scheduleWords nk) :
    (expandKey key nk).getD i 0 = (expandKey key nk).getD (i - nk) 0 ^^^
      scheduleTemp nk i ((expandKey key nk).getD (i - 1) 0) := by
  have hl := scheduleLoop_length key nk
  rw [expandKey_eq, getD_reverse _ _ (by omega), getD_reverse _ _ (by omega),
    getD_reverse _ _ (by omega), hl]
  have e := expandLoop_getD nk (scheduleWords nk - nk) nk
    ((List.range nk).map fun i => be32At key (4 * i)).reverse (scheduleWords nk - 1 - i) (by omega)
  refine e.trans ?_
  simp only [List.getD_eq_getElem?_getD, List.getElem?_drop]
  have e1 : scheduleWords nk - 1 - i + 1 + (nk - 1) = scheduleWords nk - 1 - (i - nk) := by omega
  have e2 : scheduleWords nk - 1 - i + 1 + 0 = scheduleWords nk - 1 - (i - 1) := by omega
  have e3 : nk + (scheduleWords nk - nk - 1 - (scheduleWords nk - 1 - i)) = i := by omega
  rw [e1, e2, e3]
  rfl

/-- Word `i` of the store: the schedule word, and 0 above the schedule (rule R147). -/
theorem scheduleStore_getD (w : List Word) (i : Nat) (h : i < 60) :
    (scheduleStore w).toList.getD i 0 = w.getD i 0 := by
  rw [List.getD_eq_getElem _ _ (by simp [h])]
  simp [scheduleStore]

/-- Word `i` of the first `nk` key words, packed from the key bytes (rule R23). -/
theorem be32At_keyBytes (s : State) (nk i : Nat) (hi : i < nk) (hn : nk ≤ 8) :
    be32At (keyBytes s nk) (4 * i) = s.key.toList.getD i 0 := by
  rw [keyBytes, be32At_wordBytes _ _ (by rw [List.length_take, Vector.length_toList]; omega)]
  simp only [List.getD_eq_getElem?_getD, List.getElem?_take, hi, if_true]

end Sys2Proof.Machine
end

