-- ==== Sys2Proof/Laws/AesTables.lean ====
section
/-! SUPPORT. `gmul` of `spec/41_aes_tables_keyexp.md` rule R140 is linear in each argument, a linear map of
bytes is settled by the eight bytes with one bit set, and `ginv` inverts (rule R141). -/

namespace Sys2Proof.Machine

/-! ### Linearity -/

theorem xtime_xor (a d : Byte) : xtime (a ^^^ d) = xtime a ^^^ xtime d := by
  have hs : (a ^^^ d) <<< 1 = a <<< 1 ^^^ d <<< 1 := BitVec.shiftLeft_xor_distrib a d 1
  have hm : (a ^^^ d).msb = (a.msb ^^ d.msb) := BitVec.msb_xor
  unfold xtime
  rw [hs, hm]
  generalize a <<< 1 = x
  generalize d <<< 1 = y
  cases a.msb <;> cases d.msb <;> simp [BitVec.xor_assoc]
  exact BitVec.xor_comm ..

theorem ite_xor (c e : Bool) (p q a : Byte) :
    (if (c ^^ e) then p ^^^ q ^^^ a else p ^^^ q) =
      (if c then p ^^^ a else p) ^^^ (if e then q ^^^ a else q) := by
  cases c <;> cases e <;> simp [BitVec.xor_assoc]
  exact BitVec.xor_comm ..

theorem gmulLoop_xor_right (n : Nat) (a b c p q : Byte) :
    gmulLoop n a (b ^^^ c) (p ^^^ q) = gmulLoop n a b p ^^^ gmulLoop n a c q := by
  induction n generalizing a b c p q with
  | zero => rfl
  | succ n ih =>
    have hs : (b ^^^ c) >>> 1 = b >>> 1 ^^^ c >>> 1 := BitVec.ushiftRight_xor_distrib b c 1
    have hb : (b ^^^ c).getLsbD 0 = (b.getLsbD 0 ^^ c.getLsbD 0) := BitVec.getLsbD_xor
    rw [gmulLoop, gmulLoop, gmulLoop, hs, hb, ite_xor, ih]

theorem gmulLoop_xor_left (n : Nat) (a d b p q : Byte) :
    gmulLoop n (a ^^^ d) b (p ^^^ q) = gmulLoop n a b p ^^^ gmulLoop n d b q := by
  induction n generalizing a d b p q with
  | zero => rfl
  | succ n ih =>
    rw [gmulLoop, gmulLoop, gmulLoop, xtime_xor, ← ih]
    congr 1
    cases b.getLsbD 0 <;> simp [BitVec.xor_assoc]
    rw [← BitVec.xor_assoc q, BitVec.xor_comm q a, BitVec.xor_assoc]

theorem gmul_xor_right (a b c : Byte) : gmul a (b ^^^ c) = gmul a b ^^^ gmul a c := by
  have := gmulLoop_xor_right 8 a b c 0 0
  simpa [gmul] using this

theorem gmul_xor_left (a d b : Byte) : gmul (a ^^^ d) b = gmul a b ^^^ gmul d b := by
  have := gmulLoop_xor_left 8 a d b 0 0
  simpa [gmul] using this

/-- A byte as the exclusive-or of its bits. -/
theorem byte_eq_bits : ∀ b : Byte, b =
    (if b.getLsbD 0 then 0x01 else 0) ^^^ (if b.getLsbD 1 then 0x02 else 0) ^^^
      (if b.getLsbD 2 then 0x04 else 0) ^^^ (if b.getLsbD 3 then 0x08 else 0) ^^^
      (if b.getLsbD 4 then 0x10 else 0) ^^^ (if b.getLsbD 5 then 0x20 else 0) ^^^
      (if b.getLsbD 6 then 0x40 else 0) ^^^ (if b.getLsbD 7 then 0x80 else 0) := by
  decide +kernel

/-- The eight bytes with one bit set. -/
def oneBitBytes : List Byte := [0x01, 0x02, 0x04, 0x08, 0x10, 0x20, 0x40, 0x80]

/-- Two maps of bytes that are linear over exclusive-or and agree on the one-bit bytes are equal. -/
theorem linear_ext {f g : Byte → Byte} (hf : ∀ x y, f (x ^^^ y) = f x ^^^ f y)
    (hg : ∀ x y, g (x ^^^ y) = g x ^^^ g y) (h : ∀ x ∈ oneBitBytes, f x = g x) (b : Byte) :
    f b = g b := by
  have z {f : Byte → Byte} (hf : ∀ x y, f (x ^^^ y) = f x ^^^ f y) : f 0 = 0 := by
    have := hf 0 0
    simpa using this
  have i (c : Bool) (x : Byte) (hx : x ∈ oneBitBytes) :
      f (if c then x else 0) = g (if c then x else 0) := by
    cases c
    · simpa using (z hf).trans (z hg).symm
    · simpa using h x hx
  rw [byte_eq_bits b]
  simp only [hf, hg]
  rw [i _ _ (by decide), i _ _ (by decide), i _ _ (by decide), i _ _ (by decide), i _ _ (by decide),
    i _ _ (by decide), i _ _ (by decide), i _ _ (by decide)]

/-! ### The inverse -/

/-- `ginv` maps 0 to 0. -/
theorem ginv_zero : ginv 0 = 0 := by decide +kernel

/-- `ginv` gives a multiplicative inverse of every nonzero byte. -/
theorem gmul_ginv : ∀ a : Byte, a ≠ 0 → gmul a (ginv a) = 1 := by decide +kernel

end Sys2Proof.Machine
end

