-- ==== Sys2Proof/Laws/Cbc.lean ====
section
/-! SUPPORT. What the chaining loop of `spec/43_cbc.md` rules R190 and R191 does to the state and to each
byte of `BUF`. -/

namespace Sys2Proof.Machine

@[simp] theorem xorBlock_getElem (p q : Block) (n : Nat) (h : n < 16) :
    (xorBlock p q)[n] = p[n] ^^^ q[n] := by simp [xorBlock]

/-- The loop writes nothing but `BUF`. -/
theorem cbcLoop_frame (m a : Nat) (prev : Block) (s : State) :
    cbcLoop m a prev s = { s with buf := (cbcLoop m a prev s).buf } := by
  induction m generalizing a prev s with
  | zero => rfl
  | succ m ih =>
    rw [cbcLoop, ih]
    simp only [memWrite]

@[simp] theorem cbcLoop_keylen (m a : Nat) (prev : Block) (s : State) :
    (cbcLoop m a prev s).keylen = s.keylen :=
  (congrArg State.keylen (cbcLoop_frame m a prev s) :)
@[simp] theorem cbcLoop_src (m a : Nat) (prev : Block) (s : State) :
    (cbcLoop m a prev s).src = s.src :=
  (congrArg State.src (cbcLoop_frame m a prev s) :)
@[simp] theorem cbcLoop_len (m a : Nat) (prev : Block) (s : State) :
    (cbcLoop m a prev s).len = s.len :=
  (congrArg State.len (cbcLoop_frame m a prev s) :)
@[simp] theorem cbcLoop_key (m a : Nat) (prev : Block) (s : State) :
    (cbcLoop m a prev s).key = s.key :=
  (congrArg State.key (cbcLoop_frame m a prev s) :)
@[simp] theorem cbcLoop_iv (m a : Nat) (prev : Block) (s : State) :
    (cbcLoop m a prev s).iv = s.iv :=
  (congrArg State.iv (cbcLoop_frame m a prev s) :)
@[simp] theorem cbcLoop_h (m a : Nat) (prev : Block) (s : State) :
    (cbcLoop m a prev s).h = s.h :=
  (congrArg State.h (cbcLoop_frame m a prev s) :)
@[simp] theorem cbcLoop_hValid (m a : Nat) (prev : Block) (s : State) :
    (cbcLoop m a prev s).hValid = s.hValid :=
  (congrArg State.hValid (cbcLoop_frame m a prev s) :)
@[simp] theorem cbcLoop_ks (m a : Nat) (prev : Block) (s : State) :
    (cbcLoop m a prev s).ks = s.ks :=
  (congrArg State.ks (cbcLoop_frame m a prev s) :)
@[simp] theorem cbcLoop_ksNk (m a : Nat) (prev : Block) (s : State) :
    (cbcLoop m a prev s).ksNk = s.ksNk :=
  (congrArg State.ksNk (cbcLoop_frame m a prev s) :)
@[simp] theorem cbcLoop_ksValid (m a : Nat) (prev : Block) (s : State) :
    (cbcLoop m a prev s).ksValid = s.ksValid :=
  (congrArg State.ksValid (cbcLoop_frame m a prev s) :)
@[simp] theorem cbcLoop_err (m a : Nat) (prev : Block) (s : State) :
    (cbcLoop m a prev s).err = s.err :=
  (congrArg State.err (cbcLoop_frame m a prev s) :)
@[simp] theorem cbcLoop_errinfo (m a : Nat) (prev : Block) (s : State) :
    (cbcLoop m a prev s).errinfo = s.errinfo :=
  (congrArg State.errinfo (cbcLoop_frame m a prev s) :)
@[simp] theorem cbcLoop_bufBytes (m a : Nat) (prev : Block) (s : State) :
    (cbcLoop m a prev s).bufBytes = s.bufBytes :=
  (congrArg State.bufBytes (cbcLoop_frame m a prev s) :)
@[simp] theorem cbcLoop_resets (m a : Nat) (prev : Block) (s : State) :
    (cbcLoop m a prev s).resets = s.resets :=
  (congrArg State.resets (cbcLoop_frame m a prev s) :)
@[simp] theorem cbcLoop_pending (m a : Nat) (prev : Block) (s : State) :
    (cbcLoop m a prev s).pending = s.pending :=
  (congrArg State.pending (cbcLoop_frame m a prev s) :)
@[simp] theorem cbcLoop_reads (m a : Nat) (prev : Block) (s : State) :
    (cbcLoop m a prev s).reads = s.reads :=
  (congrArg State.reads (cbcLoop_frame m a prev s) :)

/-- The loop keeps the canonical form of the memory. -/
theorem cbcLoop_wf (m a : Nat) (prev : Block) (s : State) (h : s.buf.wf = true) :
    (cbcLoop m a prev s).buf.wf = true := by
  induction m generalizing a prev s with
  | zero => exact h
  | succ m ih =>
    rw [cbcLoop]
    exact ih _ _ _ (by rw [memWrite_buf]; exact Memory.putBytes_wf _ _ _ h)

/-- The loop lists only addresses of its range beside those listed before. -/
theorem cbcLoop_mem {m a : Nat} {prev : Block} {s : State} {c : Host.Cell}
    (h : c ∈ (cbcLoop m a prev s).buf) : (a ≤ c.1 ∧ c.1 < a + 16 * m) ∨ c ∈ s.buf := by
  induction m generalizing a prev s with
  | zero => exact .inr h
  | succ m ih =>
    rw [cbcLoop] at h
    rcases ih h with ⟨h1, h2⟩ | h
    · exact .inl ⟨by omega, by omega⟩
    · rw [memWrite_buf] at h
      rcases Memory.mem_putBytes h with ⟨h1, h2⟩ | h
      · rw [Vector.length_toList] at h2
        exact .inl ⟨h1, by omega⟩
      · exact .inr h

/-- Bytes outside the range of the loop read as before. -/
theorem cbcLoop_outside (m a : Nat) (prev : Block) (s : State) (c : Nat)
    (h : c < a ∨ a + 16 * m ≤ c) : readByte (cbcLoop m a prev s) c = readByte s c := by
  induction m generalizing a prev s with
  | zero => rfl
  | succ m ih =>
    rw [cbcLoop, ih _ _ _ (by omega), readByte_memWrite_outside _ _ _ _ (by omega)]

/-- Byte `n` of block `j`, at address `b`, after the loop: the decryption of the ciphertext block as it was
before the loop, exclusive-or the ciphertext block before it (or the feedback the loop started with). -/
theorem cbcLoop_inside (m a : Nat) (prev : Block) (s : State) (j b n : Nat) (hb : b = a + 16 * j)
    (hj : j < m) (hn : n < 16) :
    readByte (cbcLoop m a prev s) (b + n) =
      (decryptBlock s.ks s.ksNk.toNat (memRead s b 16))[n] ^^^
        (if j = 0 then prev[n] else readByte s (b - 16 + n)) := by
  induction m generalizing a prev s j with
  | zero => omega
  | succ m ih =>
    rw [cbcLoop]
    rcases j with _ | j
    · obtain rfl : b = a := by omega
      rw [cbcLoop_outside _ _ _ _ _ (by omega), readByte_memWrite_inside _ _ _ _ hn,
        xorBlock_getElem, if_pos rfl]
    · rw [ih (a + 16) _ _ j (by omega) (by omega), memRead_memWrite_apart _ _ _ _ _ (by omega),
        memWrite_ks, memWrite_ksNk]
      congr 1
      rcases j with _ | j
      · obtain rfl : a = b - 16 := by omega
        rw [if_pos rfl, if_neg (by omega), memRead_getElem]
      · rw [if_neg (by omega), if_neg (by omega), readByte_memWrite_outside _ _ _ _ (by omega)]

end Sys2Proof.Machine
end

