-- ==== Sys2Proof/Laws/Decode.lean ====
section
/-! SUPPORT. The decoder as a chain of equality tests, and what it can answer. -/

namespace Sys2Proof

/-- The table search of `decode`, unrolled: every mask is all ones, so each row is an equality test
(`spec/30_encoding.md` rule R92). -/
theorem decode_eq_tests (v : Word) :
    decode v =
      if v = 0x00 then .command .nop
      else if v = 0x01 then .command .clear
      else if v = 0x10 then .command .shaInit
      else if v = 0x11 then .command .shaBlock
      else if v = 0x20 then .command .aesKeyexp
      else if v = 0x21 then .command .aesDecblk
      else if v = 0x30 then .command .cbcDecrypt
      else .illegalCommand v := by
  have hm (p : Word) : (v &&& 0xFFFFFFFF == p) = decide (v = p) := by
    have : (0xFFFFFFFF : Word) = BitVec.allOnes 32 := by decide
    rw [this, BitVec.and_allOnes]; rfl
  simp only [decode, commandTable, findCommand, CommandRow.selects, hm, decide_eq_true_eq]

/-- A rejection names the word it rejects. -/
theorem decode_illegal_eq {v w : Word} (h : decode v = .illegalCommand w) : w = v := by
  rw [decode_eq_tests] at h
  repeat' split at h
  all_goals cases h
  rfl

end Sys2Proof
end

