-- ==== Sys2Proof/Laws/Invariants.lean ====
section
/-! SUPPORT. Which fields each part of the invariant of `Safety.lean` reads, and which operations establish
or keep it. -/

namespace Sys2Proof.Machine

variable {s t : State}

/-! ### Each part depends on its own fields alone -/

theorem State.MemoryOk.congr (h : s.MemoryOk) (hb : t.buf = s.buf) (hn : t.bufBytes = s.bufBytes) :
    t.MemoryOk := by
  unfold State.MemoryOk; rw [hb, hn]; exact h

theorem State.LatchOk.congr (h : s.LatchOk) (he : t.err = s.err) (hi : t.errinfo = s.errinfo) :
    t.LatchOk := by
  unfold State.LatchOk; rw [he, hi]; exact h

theorem State.ScheduleOk.congr (h : s.ScheduleOk) (h1 : t.ks = s.ks) (h2 : t.ksNk = s.ksNk)
    (h3 : t.ksValid = s.ksValid) : t.ScheduleOk := by
  unfold State.ScheduleOk; rw [h1, h2, h3]; exact h

theorem State.HashOk.congr (h : s.HashOk) (h1 : t.h = s.h) (h2 : t.hValid = s.hValid) :
    t.HashOk := by
  unfold State.HashOk; rw [h1, h2]; exact h

/-! ### The buffer memory -/

/-- The size every engine has after reset is a legal one, whatever the free choice is. -/
theorem legalBufBytes_bufBytes : Config.legalBufBytes Config.bufBytes = true := by
  have h := Nat.mod_lt Config.bufSizeChoice (show 0 < 2 ^ 25 by decide)
  have e : Config.bufBytes = 64 * (1 + Config.bufSizeChoice % 2 ^ 25) := rfl
  rw [Config.legalBufBytes, e]
  generalize Config.bufSizeChoice % 2 ^ 25 = k at h
  simp
  omega

theorem legalBufBytes_iff (n : Nat) :
    Config.legalBufBytes n = true ↔ n % 64 = 0 ∧ 64 ≤ n ∧ n ≤ 2 ^ 31 := by
  simp [Config.legalBufBytes, and_assoc]

/-- The memory after reset is in canonical form. -/
theorem reset_memoryOk : State.reset.MemoryOk := ⟨rfl, by simp [State.reset], legalBufBytes_bufBytes⟩

theorem memWrite_memoryOk {n a : Nat} {b : Vector Byte n} (h : s.MemoryOk)
    (hr : a + n ≤ s.bufBytes) : (memWrite s a b).MemoryOk := by
  refine ⟨?_, ?_, h.2.2⟩
  · rw [memWrite_buf]; exact Memory.putBytes_wf _ _ _ h.1
  · intro c hc
    rw [memWrite_buf] at hc
    rw [memWrite_bufBytes]
    rcases Memory.mem_putBytes hc with h1 | h1
    · rw [Vector.length_toList] at h1; omega
    · exact h.2.1 c h1

theorem cbcLoop_memoryOk {m a : Nat} {prev : Block} (h : s.MemoryOk)
    (hr : a + 16 * m ≤ s.bufBytes) : (cbcLoop m a prev s).MemoryOk := by
  refine ⟨cbcLoop_wf _ _ _ _ h.1, fun c hc => ?_, ?_⟩
  · rw [cbcLoop_bufBytes]
    rcases cbcLoop_mem hc with h1 | h1
    · omega
    · exact h.2.1 c h1
  · rw [cbcLoop_bufBytes]; exact h.2.2

theorem hardReset_memoryOk (h : s.MemoryOk) : (hardReset s).MemoryOk :=
  ⟨rfl, fun c hc => by simp at hc, h.2.2⟩

/-! ### The latch, the schedule, the hash -/

theorem latchError_latchOk (e : EngineError) (info : Word) (s : State) :
    (latchError e info s).LatchOk := by
  refine ⟨?_, fun h => absurd h ?_⟩
  · rw [latchError_err]; cases e <;> decide
  · rw [latchError_err]; exact errorCode_ne_zero e

theorem expandIntoKs_ksNk_toNat (h : legalKeyLength s = true) :
    (expandIntoKs s).ksNk.toNat = keyWordCount s := by
  change (BitVec.ofNat 4 (keyWordCount s)).toNat = _
  rcases (keyWordCount_of_legal h).1 with h | h | h <;> rw [h] <;> rfl

/-- A key expansion with a legal key length leaves a complete schedule. -/
theorem expandIntoKs_scheduleOk (h : legalKeyLength s = true) : (expandIntoKs s).ScheduleOk := by
  have e := expandIntoKs_ksNk_toNat h
  obtain ⟨h1, h2⟩ := keyWordCount_of_legal h
  refine ⟨fun _ => ⟨?_, keyBytes s (keyWordCount s), ?_, ?_⟩, fun h => by cases h⟩
  · change BitVec.ofNat 4 (keyWordCount s) = _ ∨ BitVec.ofNat 4 (keyWordCount s) = _ ∨
      BitVec.ofNat 4 (keyWordCount s) = _
    rcases h1 with h | h | h <;> rw [h] <;> simp
  · rw [e, keyBytes, wordBytes_length, List.length_take, Vector.length_toList]
    omega
  · rw [e]; rfl

/-- One more compression keeps `H` a descendant of `HINIT`. -/
theorem compress_hashOk (h : s.HashOk) (hv : s.hValid = true) (b : Vector Byte 64) :
    (s.setHash (compress s.h b)).HashOk := by
  obtain ⟨blocks, hb⟩ := h.1 hv
  refine ⟨fun _ => ⟨blocks ++ [b], ?_⟩, fun hf => ?_⟩
  · rw [List.foldl_append, ← hb]; rfl
  · rw [State.setHash_hValid, hv] at hf; cases hf

end Sys2Proof.Machine
end

