-- ==== Sys2Proof/Laws/Notation.lean ====
section
/-! SUPPORT. Where a word of the buffer window stands, and what `RDBUF` and `WRBUF` inside `BUF` do. -/

namespace Sys2Proof.Machine

variable {s : State}

theorem wordOffset_toNat {k : Nat} (h : 0x1000 + 4 * k < 2 ^ 32) :
    (wordOffset k).val.toNat = 0x1000 + 4 * k := by
  simp only [wordOffset, windowOffset, BitVec.toNat_ofNat, Nat.mod_eq_of_lt h]

/-- Inside `BUF` the offset of word `k` is that word of the window. -/
theorem hostMap_wordOffset {b k : Nat} (hk : 4 * k < b) (hb : b ≤ 2 ^ 31) :
    hostMap b (wordOffset k) = .window (4 * k) := by
  have e := wordOffset_toNat (k := k) (by omega)
  rcases hostMap_cases (rfl : hostMap b (wordOffset k) = _) with
    h | h | h | h | h | h | h | h | h | h | h | h <;> rw [e] at h
  case inr.inr.inr.inr.inr.inr.inr.inr.inr.inr.inl => rw [h.2, Nat.add_sub_cancel_left]
  all_goals omega

/-- `RDBUF` inside `BUF` gives the four bytes there (rule R63). -/
theorem readBuf_inside {k : Nat} (hk : 4 * k < s.bufBytes) (hb : s.bufBytes ≤ 2 ^ 31) :
    readBuf k s = windowWord s (4 * k) := by
  rw [readBuf, hostRead32, hostMap_wordOffset hk hb]

/-- `WRBUF` inside `BUF` writes four bytes (rule R63). -/
theorem hostAccess_wrbuf_inside {k : Nat} (v : Word) (hk : 4 * k < s.bufBytes)
    (hb : s.bufBytes ≤ 2 ^ 31) :
    hostAccess (HostLine.wrbuf (4 * k) v).event s = .next (memWrite s (4 * k) (bytesBe32 v)) := by
  refine (dif_pos (wordOffset k).property).trans ?_
  show hostWrite32 (wordOffset k) v s = _
  rw [hostWrite32, hostMap_wordOffset hk hb]

end Sys2Proof.Machine
end

