-- ==== Sys2Proof/Laws/PerInstr.lean ====
section
/-! SUPPORT. The statement made per command: its word is in format C of `spec/30_encoding.md` rule R92 and
decodes to it, and it is well formed. -/

namespace Sys2Proof.Laws.FormatC

/-- The word of a command has its opcode in bits 7:0 and zeros above, and decodes to the command, which
is well formed. -/
def Statement (i : Instr) : Prop :=
  wfFormatC (encode i) = true ∧ (encode i).extractLsb' 0 8 = opcode i ∧
    decode (encode i) = .command i ∧ i.wf = true

theorem nop : Statement .nop := by unfold Statement; decide
theorem clear : Statement .clear := by unfold Statement; decide
theorem shaInit : Statement .shaInit := by unfold Statement; decide
theorem shaBlock : Statement .shaBlock := by unfold Statement; decide
theorem aesKeyexp : Statement .aesKeyexp := by unfold Statement; decide
theorem aesDecblk : Statement .aesDecblk := by unfold Statement; decide
theorem cbcDecrypt : Statement .cbcDecrypt := by unfold Statement; decide

end Sys2Proof.Laws.FormatC
end

