-- ==== Sys2Proof/Laws/Run.lean ====
section
/-! SUPPORT. Every access the host interface offers answers a next state and leaves what the host will do
afterwards alone; a run unfolds step by step. -/

namespace Sys2Proof.Machine

variable {s t : State}

/-! ### Every aligned access answers a next state -/

theorem unlessLatched_answers {b : Result} (h : ∃ t, b = .next t) :
    ∃ t, unlessLatched s b = .next t := by
  unfold unlessLatched; split
  · exact h
  · exact ⟨_, rfl⟩

theorem ite_answers {c : Prop} [Decidable c] {a b : Result} (ha : ∃ t, a = .next t)
    (hb : ∃ t, b = .next t) : ∃ t, (if c then a else b) = .next t := by
  split
  · exact ha
  · exact hb

/-- A command always answers a next state: it completes, raises an error, or is dropped. -/
theorem exec_answers (i : Instr) (s : State) : ∃ t, exec i s = .next t := by
  have n (t : State) : ∃ u, (.next t : Result) = .next u := ⟨t, rfl⟩
  have r (e : EngineError) (v : Word) : ∃ u, raise e v s = .next u := ⟨_, rfl⟩
  cases i
  · exact n _
  · exact n _
  · exact unlessLatched_answers (n _)
  · exact unlessLatched_answers (ite_answers (r _ _) (ite_answers (r _ _) (n _)))
  · exact unlessLatched_answers (ite_answers (r _ _) (n _))
  · exact unlessLatched_answers (ite_answers (r _ _) (ite_answers (r _ _) (n _)))
  · exact unlessLatched_answers
      (ite_answers (r _ _) (ite_answers (r _ _) (ite_answers (r _ _) (n _))))

theorem takeCommand_answers (v : Word) (s : State) : ∃ t, takeCommand v s = .next t := by
  unfold takeCommand
  split
  · exact exec_answers _ _
  · exact unlessLatched_answers ⟨_, rfl⟩

theorem hostWrite32_answers (off : Offset) (v : Word) (s : State) : ∃ t, hostWrite32 off v s = .next t := by
  unfold hostWrite32
  split
  · exact takeCommand_answers v s
  all_goals exact ⟨_, rfl⟩

theorem hostAccess_answers {e : HostEvent} (s : State) (h : e.wf = true) :
    ∃ t, hostAccess e s = .next t := by
  cases e
  · exact ⟨_, dif_pos h⟩
  · obtain ⟨t, ht⟩ := hostWrite32_answers ⟨_, h⟩ _ s
    exact ⟨t, (dif_pos h).trans ht⟩
  · exact ⟨_, rfl⟩

/-! ### No access touches what the host will do -/

theorem exec_pending {i : Instr} (h : exec i s = .next t) : t.pending = s.pending := by
  cases i
  · rw [execNop_cases h]
  · rw [execClear_cases h, clearRegisters_pending]
  · rcases execShaInit_cases h with ⟨-, rfl⟩ | ⟨-, rfl⟩ <;> simp
  · rcases execShaBlock_cases h with ⟨-, rfl⟩ | ⟨-, -, rfl⟩ | ⟨-, -, -, rfl⟩ | ⟨-, -, -, rfl⟩ <;> simp
  · rcases execAesKeyexp_cases h with ⟨-, rfl⟩ | ⟨-, -, rfl⟩ | ⟨-, -, rfl⟩ <;> simp
  · rcases execAesDecblk_cases h with ⟨-, rfl⟩ | ⟨-, -, rfl⟩ | ⟨-, -, -, rfl⟩ | ⟨-, -, -, rfl⟩ <;> simp
  · rcases execCbcDecrypt_cases h with
      ⟨-, rfl⟩ | ⟨-, -, rfl⟩ | ⟨-, -, -, rfl⟩ | ⟨-, -, -, -, rfl⟩ | ⟨-, -, -, -, rfl⟩ <;> simp

theorem hostWrite32_pending {off : Offset} {v : Word} (h : hostWrite32 off v s = .next t) :
    t.pending = s.pending := by
  rcases hostWrite32_cases h with
    ⟨-, h⟩ | rfl | rfl | rfl | rfl | ⟨i, rfl⟩ | ⟨i, rfl⟩ | ⟨a, -, -, rfl⟩
  · rcases takeCommand_cases h with ⟨i, -, h⟩ | ⟨w, -, ⟨-, rfl⟩ | ⟨-, rfl⟩⟩
    · exact exec_pending h
    · rfl
    · simp
  all_goals simp

theorem hostAccess_pending {e : HostEvent} (h : hostAccess e s = .next t) :
    t.pending = s.pending := by
  rcases hostAccess_cases h with ⟨off, -, rfl⟩ | ⟨off, v, -, h⟩ | ⟨-, rfl⟩
  · simp
  · exact hostWrite32_pending h
  · simp

/-! ### Runs -/

theorem core_run_zero (s : State) : Host.Core.run Sys2Proof.core 0 s = .next s := rfl

/-- A run whose first step answers a next state goes on from there. -/
theorem core_run_succ {n : Nat} (h : step s = .next t) :
    Host.Core.run Sys2Proof.core (n + 1) s = Host.Core.run Sys2Proof.core n t := by
  have h' : Sys2Proof.core.step s = .next t := h
  simp only [Host.Core.run, h']

end Sys2Proof.Machine
end

