-- ==== Sys2Proof/Laws/Sha.lean ====
section
/-! SUPPORT. What the message schedule holds at each index, how the rounds follow one another, and that the
round constants are the cube roots rule R111 defines them as. -/

namespace Sys2Proof.Machine

/-! ### The message schedule -/

theorem extendSchedule_length (n : Nat) (w : List Word) :
    (extendSchedule n w).length = n + w.length := by
  induction n generalizing w with
  | zero => simp [extendSchedule]
  | succ n ih => rw [extendSchedule, ih, List.length_cons]; omega

/-- Extending leaves the words there were. -/
theorem extendSchedule_drop (n : Nat) (w : List Word) : (extendSchedule n w).drop n = w := by
  induction n generalizing w with
  | zero => rfl
  | succ n ih => rw [extendSchedule, Nat.add_comm n 1, ← List.drop_drop, List.drop_one, ← List.drop_one,
      List.drop_drop, Nat.add_comm 1 n, ← List.drop_drop, ih]; rfl

/-- Every word the extension adds is the recurrence of rule R118 over the words before it (newest
first). -/
theorem extendSchedule_getD (n : Nat) (w : List Word) (k : Nat) (hk : k < n) :
    (extendSchedule n w).getD k 0 = nextScheduleWord ((extendSchedule n w).drop (k + 1)) := by
  induction n generalizing w with
  | zero => omega
  | succ n ih =>
    rw [extendSchedule]
    by_cases h : k < n
    · exact ih _ h
    · obtain rfl : k = n := by omega
      have hd := extendSchedule_drop k (nextScheduleWord w :: w)
      rw [← List.drop_drop, hd]
      have := congrArg (fun l => l.getD 0 0) hd
      simpa using this

theorem messageSchedule_length (b : Vector Byte 64) : (messageSchedule b).length = 64 := by
  simp [messageSchedule, extendSchedule_length, blockWords]

/-- Index `t` of a list of 64 words is index `63 - t` of the list reversed. -/
theorem getD_reverse_64 (l : List Word) (h : l.length = 64) (t : Nat) (ht : t < 64) :
    l.reverse.getD t 0 = l.getD (63 - t) 0 := by
  rw [List.getD_eq_getElem _ _ (by simp [h, ht]), List.getD_eq_getElem _ _ (by omega),
    List.getElem_reverse]
  congr 1
  omega

/-- Rule R117: the first sixteen words are the block. -/
theorem messageSchedule_block (b : Vector Byte 64) (t : Nat) (ht : t < 16) :
    (messageSchedule b).getD t 0 = be32At b.toList (4 * t) := by
  have hl : (extendSchedule 48 (blockWords b.toList).reverse).length = 64 := by
    simp [extendSchedule_length, blockWords]
  rw [messageSchedule, getD_reverse_64 _ hl _ (by omega)]
  have hd := congrArg (fun l => l.getD (15 - t) 0)
    (extendSchedule_drop 48 (blockWords b.toList).reverse)
  simp only [List.getD_eq_getElem?_getD, List.getElem?_drop] at hd ⊢
  have e : 63 - t = 48 + (15 - t) := by omega
  rw [e, hd, List.getElem?_reverse (by simp [blockWords]; omega)]
  have e2 : (blockWords b.toList).length - 1 - (15 - t) = t := by simp [blockWords]; omega
  rw [e2]
  simp [blockWords, ht]

/-- Rule R118: every further word. -/
theorem messageSchedule_next (b : Vector Byte 64) (t : Nat) (h : 16 ≤ t) (ht : t < 64) :
    (messageSchedule b).getD t 0 =
      smallSigma1 ((messageSchedule b).getD (t - 2) 0) + (messageSchedule b).getD (t - 7) 0 +
        smallSigma0 ((messageSchedule b).getD (t - 15) 0) + (messageSchedule b).getD (t - 16) 0 := by
  have hl : (extendSchedule 48 (blockWords b.toList).reverse).length = 64 := by
    simp [extendSchedule_length, blockWords]
  unfold messageSchedule
  rw [getD_reverse_64 _ hl t ht, getD_reverse_64 _ hl (t - 2) (by omega),
    getD_reverse_64 _ hl (t - 7) (by omega), getD_reverse_64 _ hl (t - 15) (by omega),
    getD_reverse_64 _ hl (t - 16) (by omega), extendSchedule_getD _ _ _ (by omega),
    nextScheduleWord]
  simp only [List.getD_eq_getElem?_getD, List.getElem?_drop]
  have e1 : 63 - t + 1 + 1 = 63 - (t - 2) := by omega
  have e2 : 63 - t + 1 + 6 = 63 - (t - 7) := by omega
  have e3 : 63 - t + 1 + 14 = 63 - (t - 15) := by omega
  have e4 : 63 - t + 1 + 15 = 63 - (t - 16) := by omega
  rw [e1, e2, e3, e4]

/-! ### The rounds -/

theorem shaRounds_append (p q : List (Word × Word)) (v : Working) :
    shaRounds (p ++ q) v = shaRounds q (shaRounds p v) := by
  induction p generalizing v with
  | nil => rfl
  | cons c p ih => exact ih _

theorem roundConstants_length : roundConstants.length = 64 := by decide

/-- The primes up to 311: the numbers from 2 on that no smaller number from 2 on divides. -/
def smallPrimes : List Nat :=
  (List.range 312).filter fun p =>
    decide (2 ≤ p) && (List.range p).all fun d => decide (d < 2) || decide (p % d ≠ 0)

/-- Rule R111's definition of the table: `K[t]` is the first 32 bits of the fractional part of the cube root
of the `t`-th prime (`a` is the whole part). The bounds say `a * 2^32 + K[t]` is that root times `2^32`,
rounded down. -/
theorem roundConstants_are_cube_roots :
    smallPrimes.length = 64 ∧ ∀ t : Fin 64, ∃ a : Fin 7,
      (2 ^ 32 * a.val + (roundConstants.getD t.val 0).toNat) ^ 3 ≤
        2 ^ 96 * smallPrimes.getD t.val 0 ∧
      2 ^ 96 * smallPrimes.getD t.val 0 <
        (2 ^ 32 * a.val + (roundConstants.getD t.val 0).toNat + 1) ^ 3 := by decide +kernel

/-- The working variables after `t` rounds of `Compress`. -/
def roundState (h : Vector Word 8) (b : Vector Byte 64) (t : Nat) : Working :=
  shaRounds ((roundConstants.zip (messageSchedule b)).take t) (loadWorking h)

theorem roundState_zero (h : Vector Word 8) (b : Vector Byte 64) :
    roundState h b 0 = loadWorking h := rfl

/-- Round `t` of rule R120, with `K[t]` and `W[t]`. -/
theorem roundState_succ (h : Vector Word 8) (b : Vector Byte 64) (t : Nat) (ht : t < 64) :
    roundState h b (t + 1) =
      shaRound (roundState h b t) (roundConstants.getD t 0) ((messageSchedule b).getD t 0) := by
  have h1 : t < roundConstants.length := by rw [roundConstants_length]; exact ht
  have h2 : t < (messageSchedule b).length := by rw [messageSchedule_length]; exact ht
  have h3 : t < (roundConstants.zip (messageSchedule b)).length := by
    rw [List.length_zip]; omega
  unfold roundState
  rw [List.take_succ_eq_append_getElem h3, shaRounds_append, List.getElem_zip,
    List.getD_eq_getElem _ _ h1, List.getD_eq_getElem _ _ h2]
  rfl

/-- Rules R121 and R123: `Compress` adds the working variables after round 63 to the chaining words. -/
theorem compress_eq (h : Vector Word 8) (b : Vector Byte 64) :
    compress h b = feedForward h (roundState h b 64) := by
  unfold compress roundState
  rw [List.take_of_length_le]
  rw [List.length_zip, roundConstants_length, messageSchedule_length]
  omega

end Sys2Proof.Machine
end

