-- ==== Sys2Proof/Tests/Slice0.lean ====
section
/-! SUPPORT. The model's own tests. Expected values come from the rules of `spec/` and from the vectors of
`spec/95_test_vectors.md` and `spec/96_test_vectors_units.md`, never from the model. The last part shows,
for every statement with hypotheses, a state and operands that meet them. -/

namespace Sys2Proof.Tests

open Sys2Proof.Machine

/-! ### Well-formedness: an ill-formed term for each check, which the check refuses -/

theorem test_wfFormatC_refuses_high_bit : wfFormatC 0x00000110 = false := by decide
theorem test_wfFormatC_accepts_opcode : wfFormatC 0x00000030 = true := by decide
theorem test_wfOffset_refuses_halfword : wfOffset 0x012 = false := by decide
theorem test_event_wf_refuses_misaligned_read : (HostEvent.read 0x005).wf = false := by decide
theorem test_event_wf_refuses_misaligned_write : (HostEvent.write 0x1001 7).wf = false := by decide
theorem test_event_wf_accepts_reset : HostEvent.hardReset.wf = true := by decide
theorem test_wfKeyLength_refuses_twenty : wfKeyLength 20 = false := by decide
theorem test_wfKeyLength_refuses_wide_sixteen : wfKeyLength 0x00010010 = false := by decide
theorem test_legalBufBytes_refuses_odd_size : Config.legalBufBytes 100 = false := by decide
theorem test_legalBufBytes_refuses_empty : Config.legalBufBytes 0 = false := by decide
theorem test_legalBufBytes_refuses_too_large : Config.legalBufBytes (2 ^ 31 + 64) = false := by decide
theorem test_line_wf_refuses_write_to_hash : (HostLine.wr (.h 0) 1).wf = false := by decide
theorem test_line_wf_offset_range :
    (HostLine.wrbuf 0xffffeffc 1).wf = true ∧ (HostLine.wrbuf 0xfffff000 1).wf = false := by decide
theorem test_line_wf_refuses_misaligned_window : (HostLine.rdbuf 2).wf = false := by decide
theorem test_memory_wf_refuses_unsorted : Memory.wf [(3, 1), (2, 1)] = false := by decide
theorem test_memory_wf_refuses_repeat : Memory.wf [(2, 1), (2, 5)] = false := by decide
theorem test_every_command_is_wf : ∀ i : Instr, i.wf = true := by intro i; cases i <;> decide

/-! ### Decoding: words written out from format C and the opcodes of rule R92 -/

theorem test_decode_nop : decode 0b00000000000000000000000000000000 = .command .nop := by decide
theorem test_decode_clear : decode 0b00000000000000000000000000000001 = .command .clear := by decide
theorem test_decode_shaInit : decode 0b00000000000000000000000000010000 = .command .shaInit := by decide
theorem test_decode_shaBlock : decode 0b00000000000000000000000000010001 = .command .shaBlock := by
  decide
theorem test_decode_aesKeyexp : decode 0b00000000000000000000000000100000 = .command .aesKeyexp := by
  decide
theorem test_decode_aesDecblk : decode 0b00000000000000000000000000100001 = .command .aesDecblk := by
  decide
theorem test_decode_cbcDecrypt : decode 0b00000000000000000000000000110000 = .command .cbcDecrypt := by
  decide

/-- `spec/95_test_vectors.md` section 5, steps 12, 18 and 21. -/
theorem test_decode_refuses_listed_words :
    ([0x02, 0x80000010, 0x0f, 0x12, 0x1f, 0x22, 0x2f, 0x31, 0xff, 0x100, 0x110, 0x10000] :
      List Word).all (fun v => decide (decode v = .illegalCommand v)) = true := by decide

/-- A number that needs more than 32 bits is no command word. -/
theorem test_decodeTableWord_refuses_wide : decodeTableWord 64 (2 ^ 32) = none := by decide

/-! ### States to test on -/

/-- The reset state of an engine with `BUF_BYTES = 256`, the size the vectors use. -/
def base : State := { State.reset with bufBytes := 256 }

/-- The memory that holds the given bytes from an address on, and nothing else. -/
def bytesAt (a : Nat) (b : List Byte) : Memory :=
  (List.range b.length).map fun i => (a + i, b.getD i 0)

/-- The bytes of words written in hexadecimal in the vectors. -/
def hexBytes (ws : List Word) : List Byte := wordBytes ws

/-- The state with the host about to write one word at one offset. -/
def about (off v : Word) (s : State) : State := { s with pending := [.write off v] }

/-- What a field of the answered state is. -/
def after {α : Type} (r : Result) (f : State → α) : Option α :=
  match r with
  | .next s => some (f s)
  | .fault _ => none
  | .refused _ => none

/-! ### NOP and CLEAR (`spec/95_test_vectors.md` section 5) -/

/-- Step 11. -/
theorem test_nop_leaves_status : after (exec .nop base) status = some 0x00000000 := by decide

/-- Step 17: an error latched, `KEYLEN`, `SRC` and a buffer word written. -/
def dirty : State :=
  { base with
    err := 0x03, errinfo := 2, keylen := 0xdeadbeef, src := 0x44, buf := bytesAt 0 [1, 2, 3, 4] }

theorem test_clear_wipes_registers :
    after (exec .clear dirty) (fun s => (s.err, s.errinfo, s.keylen, s.src)) = some (0, 0, 0, 0) := by
  decide
theorem test_clear_keeps_buffer :
    after (exec .clear dirty) (hostRead32 ⟨0x1000, rfl⟩) = some 0x01020304 := by decide

/-! ### SHA_INIT and SHA_BLOCK (`spec/96_test_vectors_units.md` section 2, rule R122) -/

/-- Rule R110's example. -/
theorem test_shaInit_reads_back :
    after (exec .shaInit base) (fun s => (hostRead32 ⟨0x060, rfl⟩ s, status s)) =
      some (0x6a09e667, 0x00000004) := by decide

/-- Step 13: dropped while an error is latched. -/
theorem test_shaInit_dropped : after (exec .shaInit dirty) (fun s => (s.h[0], s.hValid)) =
    some (0, false) := by decide

/-- The padded message "abc" at `SRC = 192`, the last address where a block fits. -/
def abcBlock : State :=
  { base with
    h := hInit, hValid := true, src := 192
    buf := bytesAt 192 (hexBytes ([0x61626380] ++ List.replicate 14 0 ++ [0x00000018])) }

set_option maxRecDepth 100000 in
theorem test_shaBlock_abc :
    after (exec .shaBlock abcBlock) State.h =
      some #v[0xba7816bf, 0x8f01cfea, 0x414140de, 0x5dae2223,
              0xb00361a3, 0x96177a9c, 0xb410ff61, 0xf20015ad] := by decide +kernel

theorem test_shaBlock_range : after (exec .shaBlock { abcBlock with src := 193 })
    (fun s => (s.err, s.errinfo)) = some (0x04, 193) := by decide

/-! ### The AES commands (rules R142, R147, R177; `spec/96_test_vectors_units.md` section 3) -/

theorem test_gmul_examples :
    gmul 0x57 0x13 = 0xfe ∧ gmul 0xff 0xff = 0x13 ∧ gmul 0x53 0xca = 0x01 := by decide
theorem test_sbox_check_values :
    sbox 0x53 = 0xed ∧ sbox 0xff = 0x16 ∧ invSbox 0x00 = 0x52 := by decide

/-- `KEYLEN = 16` and the key `00 01 .. 0f`. -/
def key16 : State :=
  { base with
    keylen := 16
    key := #v[0x00010203, 0x04050607, 0x08090a0b, 0x0c0d0e0f, 0, 0, 0, 0] }

set_option maxRecDepth 100000 in
theorem test_aesKeyexp_16 :
    after (exec .aesKeyexp key16) (fun s => (s.ks[4], s.ks[43], s.ks[44], status s)) =
      some (0xd6aa74fd, 0x4d2b30c5, 0, 0x00000408) := by decide +kernel

theorem test_aesKeyexp_bad_length :
    after (exec .aesKeyexp { key16 with keylen := 20 }) (fun s => (s.err, s.errinfo, s.ksValid)) =
      some (0x02, 20, false) := by decide

/-- The schedule of the key `00 01 .. 0f`, and the known-answer block at `SRC = 240`. -/
def block16 : State :=
  { expandIntoKs key16 with
    src := 240
    buf := bytesAt 240 (hexBytes [0x69c4e0d8, 0x6a7b0430, 0xd8cdb780, 0x70b4c55a]) }

set_option maxRecDepth 100000 in
theorem test_aesDecblk_16 :
    after (exec .aesDecblk block16) (fun s => s.buf.map Prod.snd) =
      some (hexBytes [0x00112233, 0x44556677, 0x8899aabb, 0xccddeeff]) := by decide +kernel

/-- The schedule of the key `00 01 .. 17`, and its known-answer block at `SRC = 1`. -/
def block24 : State :=
  { expandIntoKs { base with
      keylen := 24
      key := #v[0x00010203, 0x04050607, 0x08090a0b, 0x0c0d0e0f, 0x10111213, 0x14151617, 0, 0] } with
    src := 1
    buf := bytesAt 1 (hexBytes [0xdda97ca4, 0x864cdfe0, 0x6eaf70a0, 0xec0d7191]) }

set_option maxRecDepth 100000 in
theorem test_aesDecblk_24 :
    after (exec .aesDecblk block24) (fun s => s.buf.map Prod.snd) =
      some (hexBytes [0x00112233, 0x44556677, 0x8899aabb, 0xccddeeff]) := by decide +kernel

/-! ### CBC_DECRYPT (rule R193) -/

/-- The registers and the buffer of rule R193. -/
def chain32 : State :=
  { base with
    keylen := 32
    key := #v[0x603deb10, 0x15ca71be, 0x2b73aef0, 0x857d7781,
              0x1f352c07, 0x3b6108d7, 0x2d9810a3, 0x0914dff4]
    iv := #v[0x00010203, 0x04050607, 0x08090a0b, 0x0c0d0e0f]
    len := 32
    buf := bytesAt 0 (hexBytes [0xf58c4c04, 0xd6e5f1ba, 0x779eabfb, 0x5f7bfbd6,
                                0x9cfc4e96, 0x7edb808d, 0x679f777b, 0xc6702c7d]) }

set_option maxRecDepth 100000 in
theorem test_cbcDecrypt_chain :
    after (exec .cbcDecrypt chain32) (fun s => (s.buf.map Prod.snd, s.ksNk, s.ksValid)) =
      some (hexBytes [0x6bc1bee2, 0x2e409f96, 0xe93d7e11, 0x7393172a,
                      0xae2d8a57, 0x1e03ac9c, 0x9eb76fac, 0x45af8e51], 8, true) := by decide +kernel

/-- Rule R190, corner case: `SRC = BUF_BYTES` with `LEN = 0` is in range. -/
theorem test_cbcDecrypt_empty_at_end :
    after (exec .cbcDecrypt { chain32 with src := 256, len := 0 }) (fun s => (s.err, s.ksNk)) =
      some (0, 8) := by decide

/-! ### Host accesses (`spec/95_test_vectors.md` section 5) -/

/-- Steps 9 and 10: the first and the last word of the window, the first byte most significant. -/
theorem test_window_is_big_endian :
    after (hostWrite32 ⟨0x10fc, rfl⟩ 0xa1b2c3d4 base) State.buf =
      some [(252, 0xa1), (253, 0xb2), (254, 0xc3), (255, 0xd4)] := by decide

/-- Step 8: the first offset past the window. -/
theorem test_write_past_window : hostWrite32 ⟨0x1100, rfl⟩ 7 base = .next base := rfl

/-- The word placed by `withFetchWord` is the one the next step takes; here an illegal one (step 12). -/
theorem test_step_runs_placed_word :
    after (step (base.withFetchWord 32 0x00000002)) (fun s => (s.err, s.errinfo, status s)) =
      some (0x03, 2, 2) := by decide

/-- Step 16: a register write is stored although an error is latched. -/
theorem test_write_while_latched :
    after (step (about 0x014 0x48 dirty)) (fun s => (s.src, s.err)) = some (0x48, 0x03) := by decide

/-! ### Host procedures (`spec/95_test_vectors.md` sections 6.1 to 6.3) -/

theorem test_pad_three_bytes :
    pad [0x61, 0x62, 0x63] =
      some ([0x61, 0x62, 0x63, 0x80] ++ List.replicate 52 0 ++ [0, 0, 0, 0, 0, 0, 0, 0x18]) := by
  decide
theorem test_stripPadding_two : stripPadding [0x0a, 0x0b, 0x02, 0x02] = some [0x0a, 0x0b] := by decide
theorem test_stripPadding_unsigned : stripPadding [0x0a, 0xf0] = none := by decide
theorem test_stripPadding_empty : stripPadding [] = none := by decide

/-- Case F0. -/
theorem test_decryptFile_empty : decryptFile [] [0x61] true base = .done base [] := by decide

/-- Case F3. -/
theorem test_decryptFile_bad_magic :
    decryptFile (0x05 :: List.replicate 23 0) [0x61] false base =
      .failed base .unsupportedFileFormat := by decide

/-- Case F3''. -/
theorem test_decryptFile_tag_byte_order :
    decryptFile ([0x04, 0x03, 0x02, 0x01, 0, 0, 0, 1] ++ List.replicate 16 0) [0x61] false base =
      .failed base .unsupportedEncryptionFormat := by decide

/-! ### Witnesses: the hypotheses of each statement, met at the values where its ranges end -/

/-- `EveryOtherWordIsIllegal`, `IllegalWordLatchesIllegalCommand`: no command word. -/
theorem witness_no_command_word : ∀ i : Instr, (0x80000010 : Word) ≠ encode i := by
  intro i; cases i <;> decide

/-- `EveryOtherWordIsIllegal`, `IllegalWordLatchesIllegalCommand`: the ends of the listed ranges. -/
theorem witness_illegal_ranges :
    ([0x100, 0x02, 0x0F, 0x12, 0x1F, 0x22, 0x2F, 0x31, 0xFF, 0xFFFFFFFF] : List Word).all (fun v =>
      decide (0x100 ≤ v.toNat ∨ (0x02 ≤ v.toNat ∧ v.toNat ≤ 0x0F) ∨
        (0x12 ≤ v.toNat ∧ v.toNat ≤ 0x1F) ∨ (0x22 ≤ v.toNat ∧ v.toNat ≤ 0x2F) ∨
        (0x31 ≤ v.toNat ∧ v.toNat ≤ 0xFF))) = true ∧
    ((0x00000110 : Word).extractLsb' 8 24 ≠ 0) := by decide

/-- `StepRunsDecodedCommand`, first clause. -/
theorem witness_pending_command :
    (about 0x000 0x11 base).pending = .write 0x000 0x11 :: [] ∧ decode 0x11 = .command .shaBlock ∧
      Instr.shaBlock.wf = true := by decide

/-- `StepRunsDecodedCommand`, second clause. -/
theorem witness_table_word : decodeTableWord 32 0x30 = some .cbcDecrypt := by decide

/-- `CommandWordIsTakenAsTheLatchAllows`, `ChecksAreMadeInOrder`: a latched engine, and a word that is not
that of `CLEAR`. -/
theorem witness_latched_command : dirty.err ≠ 0 ∧ (0x00000000 : Word) ≠ 0x00000001 := by decide

/-- `CommandWordIsTakenAsTheLatchAllows`, `IllegalWordLatchesIllegalCommand`, `ChecksAreMadeInOrder`: no error
latched, a command word and another. -/
theorem witness_clean_command :
    base.err = 0 ∧ (0x10 : Word) = encode .shaInit ∧ decode 0x80000010 = .illegalCommand 0x80000010 := by
  decide

/-- `FirstErrorStaysLatched`: a step that keeps the error, and the two that clear it. -/
theorem witness_latched_steps :
    dirty.err ≠ 0 ∧ (∃ t, step (about 0x014 1 dirty) = .next t ∧ t.err = dirty.err) ∧
      (∃ t, step (about 0x000 1 dirty) = .next t ∧ t.err = 0) ∧
      (∃ t, step { dirty with pending := [.hardReset] } = .next t ∧ t.err = 0) :=
  ⟨by decide, ⟨_, rfl, rfl⟩, ⟨_, rfl, rfl⟩, ⟨_, rfl, rfl⟩⟩

/-- `FailedCommandWritesOnlyTheLatch`, `CommandsRaiseOnlyTheirErrors`: each error a command can raise. -/
theorem witness_raised :
    base.err = 0 ∧
    (∃ t, exec .shaBlock base = .next t ∧ t.err = 0x05) ∧
    (∃ t, exec .shaBlock { base with hValid := true, src := 193 } = .next t ∧ t.err = 0x04) ∧
    (∃ t, exec .aesKeyexp base = .next t ∧ t.err = 0x02) ∧
    (∃ t, exec .aesDecblk base = .next t ∧ t.err = 0x06) ∧
    (∃ t, exec .aesDecblk { base with ksValid := true, src := 241 } = .next t ∧ t.err = 0x04) ∧
    (∃ t, exec .cbcDecrypt { base with len := 17 } = .next t ∧ t.err = 0x01) ∧
    (∃ t, exec .cbcDecrypt base = .next t ∧ t.err = 0x02) ∧
    (∃ t, exec .cbcDecrypt { base with keylen := 16, len := 0xFFFFFFF0 } = .next t ∧ t.err = 0x04) :=
  ⟨by decide, ⟨_, rfl, rfl⟩, ⟨_, rfl, rfl⟩, ⟨_, rfl, rfl⟩, ⟨_, rfl, rfl⟩, ⟨_, rfl, rfl⟩, ⟨_, rfl, rfl⟩,
    ⟨_, rfl, rfl⟩, ⟨_, rfl, rfl⟩⟩

/-- `ChecksAreMadeInOrder`: the commands' own checks, at the last value that fails. -/
theorem witness_checks :
    base.err = 0 ∧ base.hValid = false ∧ base.ksValid = false ∧
    abcBlock.hValid = true ∧ ({ abcBlock with src := 193 } : State).bufBytes < (193 : Word).toNat + 64 ∧
    block16.ksValid = true ∧ ({ block16 with src := 241 } : State).bufBytes < (241 : Word).toNat + 16 ∧
    (base.keylen ≠ 16 ∧ base.keylen ≠ 24 ∧ base.keylen ≠ 32) ∧ base.len.toNat % 16 = 0 ∧
    (17 : Word).toNat % 16 ≠ 0 ∧ (0xFFFFFFFF : Word).toNat % 16 ≠ 0 ∧
    chain32.keylen = 32 ∧ chain32.len.toNat % 16 = 0 ∧
    ({ chain32 with src := 225 } : State).bufBytes < (225 : Word).toNat + chain32.len.toNat := by decide

/-- `HardResetAgreesWithClearButForBuf`. -/
theorem witness_hard_reset : ({ dirty with pending := [.hardReset] } : State).pending = .hardReset :: [] :=
  rfl

/-- `ShaInitLoadsInitialWords`, `ShaBlockRunsTheSixtyFourRounds`, `ShaBlockChainsCompress`: the last address
where a block fits. -/
theorem witness_sha_block :
    abcBlock.err = 0 ∧ abcBlock.hValid = true ∧ abcBlock.src.toNat + 64 ≤ abcBlock.bufBytes ∧
      abcBlock.src.toNat + 64 = 256 := by decide

/-- `GinvIsTheUniqueInverse`. -/
theorem witness_nonzero_byte : (0x53 : Byte) ≠ 0 ∧ gmul 0x53 0xca = 1 := by decide

/-- `KeyExpansionFollowsTheRecurrence`, both parts. -/
theorem witness_key_lengths :
    key16.err = 0 ∧ key16.keylen.toNat = 4 * 4 ∧ (24 : Word).toNat = 4 * 6 ∧
      chain32.keylen.toNat = 4 * 8 ∧ (base.keylen ≠ 16 ∧ base.keylen ≠ 24 ∧ base.keylen ≠ 32) := by
  decide

/-- `KeyWordsAboveNkAreIgnored`: a key that differs from the fifth word on. -/
theorem witness_key_words_above :
    key16.err = 0 ∧ key16.keylen.toNat ≤ 32 ∧
      (∀ i : Fin 8, i.val < key16.keylen.toNat / 4 →
        (key16.key.set 4 0xffffffff)[i] = key16.key[i]) ∧
      ∃ t, exec .aesKeyexp key16 = .next t :=
  ⟨by decide, by decide, by decide, exec_answers _ _⟩

/-- `RoundConstantsAreTheListedTen`, `DecryptBlockIsABijection`, `InvMixColumnsMatrixAndLinearity`,
`NotationMeansWhatItSays`: the ends of the small ranges. -/
theorem witness_small_ranges :
    (0 < 1 ∧ 31 < 32 ∧ 7 < 8) ∧ (1 ≤ 1) ∧ ((8 : Nat) = 4 ∨ (8 : Nat) = 6 ∨ (8 : Nat) = 8) ∧ (3 < 4) ∧ (0 < 4) := by decide

/-- `AesDecblkDecryptsInPlace`: the last address where a block fits. -/
theorem witness_aes_block :
    block16.err = 0 ∧ block16.ksValid = true ∧ block16.src.toNat + 16 = block16.bufBytes := by decide

/-- `CbcDecryptComputesTheChain`: a chain that ends at the end of `BUF`, and an empty one there. -/
theorem witness_cbc :
    chain32.err = 0 ∧ chain32.len.toNat % 16 = 0 ∧
      (chain32.keylen = 16 ∨ chain32.keylen = 24 ∨ chain32.keylen = 32) ∧
      (224 : Word).toNat + chain32.len.toNat = chain32.bufBytes ∧
      (256 : Word).toNat + (0 : Word).toNat = chain32.bufBytes := by decide

/-- `CbcDecryptInTwoPieces`: one block and one block at the end of `BUF`; a second piece of no block. -/
theorem witness_two_pieces :
    chain32.err = 0 ∧ 0 < 1 ∧ 16 * (1 + 1) < 2 ^ 32 ∧
      (chain32.keylen = 16 ∨ chain32.keylen = 24 ∨ chain32.keylen = 32) ∧
      (224 : Word).toNat + 16 * (1 + 1) = chain32.bufBytes ∧
      (240 : Word).toNat + 16 * (1 + 0) = chain32.bufBytes ∧ chain32.bufBytes ≤ 2 ^ 31 := by decide

/-- `CbcDecryptIgnoresTheOldSchedule`. -/
theorem witness_cbc_completes :
    ∃ t, exec .cbcDecrypt chain32 = .next t ∧ t.err = 0 :=
  ⟨_, execCbcDecrypt_of_ready (by decide) (by decide) (by decide) (by decide), by
    rw [cbcLoop_err, expandIntoKs_err]; decide⟩

/-- One block under a zero IV. -/
def oneBlock : State := { chain32 with len := 16, iv := Vector.replicate 4 0, src := 240 }

/-- `CbcOfOneBlockUnderZeroIv`. -/
theorem witness_one_block :
    oneBlock.err = 0 ∧ oneBlock.len = 16 ∧ oneBlock.iv = Vector.replicate 4 0 ∧
      oneBlock.src.toNat + 16 ≤ oneBlock.bufBytes ∧
      ∃ u, exec .aesKeyexp oneBlock = .next u ∧ u.err = 0 :=
  ⟨by decide, by decide, by decide, by decide, _,
    execAesKeyexp_of_legal (by decide) (by decide), by rw [expandIntoKs_err]; decide⟩

/-- `CommandsWriteOnlyTheirState`: every command answers a next state, with an error and without; an
address on each side of the range of the storing commands. -/
theorem witness_commands_answer :
    (∀ i : Instr, ∃ t, exec i base = .next t) ∧ (∃ t, exec .aesDecblk block16 = .next t) ∧
      (∃ t, exec .cbcDecrypt chain32 = .next t) ∧ (∃ t, exec .aesKeyexp key16 = .next t) ∧
      (∃ t, exec .shaBlock abcBlock = .next t) ∧ 239 < block16.src.toNat ∧
      chain32.src.toNat + chain32.len.toNat ≤ 32 :=
  ⟨fun _ => exec_answers _ _, exec_answers _ _, exec_answers _ _, exec_answers _ _, exec_answers _ _,
    by decide, by decide⟩

/-- `OnlyShaCommandsAndResetsWriteHash`: each of the four steps that can change `H` or `H_VALID`, the last
with a chaining value that the compression changes. -/
theorem witness_hash_steps :
    (∃ t, step { abcBlock with pending := [.hardReset] } = .next t ∧ t.hValid ≠ abcBlock.hValid) ∧
    (∃ t, step (about 0x000 (encode .clear) abcBlock) = .next t ∧ t.hValid ≠ abcBlock.hValid) ∧
    (∃ t, step (about 0x000 (encode .shaInit) base) = .next t ∧ t.hValid ≠ base.hValid) :=
  ⟨⟨_, rfl, by decide⟩, ⟨_, rfl, by decide⟩, ⟨_, rfl, by decide⟩⟩

set_option maxRecDepth 100000 in
theorem witness_hash_step_block :
    (after (step (about 0x000 (encode .shaBlock) abcBlock)) fun t => decide (t.h ≠ abcBlock.h)) =
      some true := by decide +kernel

/-- `OnlyKeyExpansionsAndResetsWriteSchedule`: each of the four steps that can change `KS_VALID`. -/
theorem witness_schedule_steps :
    (∃ t, step { block16 with pending := [.hardReset] } = .next t ∧ t.ksValid ≠ block16.ksValid) ∧
    (∃ t, step (about 0x000 (encode .clear) block16) = .next t ∧ t.ksValid ≠ block16.ksValid) ∧
    (after (step (about 0x000 (encode .aesKeyexp) key16)) State.ksValid = some true ∧
      key16.ksValid = false) ∧
    (after (step (about 0x000 (encode .cbcDecrypt) { chain32 with len := 0 })) State.ksValid = some true ∧
      chain32.ksValid = false) :=
  ⟨⟨_, rfl, by decide⟩, ⟨_, rfl, by decide⟩, by decide, by decide⟩

/-- `ScheduleWordsAreSeenOnlyByAesDecblk`: a step that takes another command. -/
theorem witness_other_command :
    (∀ rest, (about 0x000 0x10 base).pending ≠ .write 0x000 (encode .aesDecblk) :: rest) ∧
      ∃ t, step (about 0x000 0x10 base) = .next t :=
  ⟨fun rest h => absurd (List.cons.inj h).1 (by decide), _, rfl⟩

/-- `HostReadReturnsTheMappedWord`, `HostWriteStoresAtTheMappedPlace`, `HostReadsBackWhatItWrote`,
`HostWriteLeavesOtherOffsets`, `ReservedOffsetsReadZeroAndIgnoreWrites`: aligned offsets at both ends of
every range of the map, with `BUF_BYTES = 256`. -/
theorem witness_map_ends :
    ([⟨0x000, rfl⟩, ⟨0x004, rfl⟩, ⟨0x008, rfl⟩, ⟨0x00C, rfl⟩, ⟨0x010, rfl⟩, ⟨0x014, rfl⟩, ⟨0x018, rfl⟩,
      ⟨0x01C, rfl⟩, ⟨0x020, rfl⟩, ⟨0x03C, rfl⟩, ⟨0x040, rfl⟩, ⟨0x04C, rfl⟩, ⟨0x050, rfl⟩, ⟨0x05C, rfl⟩,
      ⟨0x060, rfl⟩, ⟨0x07C, rfl⟩, ⟨0x080, rfl⟩, ⟨0xFFC, rfl⟩, ⟨0x1000, rfl⟩, ⟨0x10FC, rfl⟩, ⟨0x1100, rfl⟩,
      ⟨0xFFFFFFFC, rfl⟩] : List Offset).map (hostMap base.bufBytes) =
      [.cmd, .status, .err, .errinfo, .keylen, .src, .len, .nothing, .key 0, .key 7, .iv 0, .iv 3,
       .nothing, .nothing, .h 0, .h 7, .nothing, .nothing, .window 0, .window 252, .nothing,
       .nothing] := by decide

/-- `HostWriteLeavesOtherOffsets`: two aligned offsets that differ, neither of them `CMD`. -/
theorem witness_two_offsets :
    (⟨0x014, rfl⟩ : Offset) ≠ ⟨0x010, rfl⟩ ∧ (⟨0x010, rfl⟩ : Offset).val ≠ 0x000 := by decide

/-- `StepRunsDecodedCommand`, the clauses on other accesses. -/
theorem witness_pending_access :
    ({ base with pending := [.read 0x10fc] } : State).pending = .read 0x10fc :: [] ∧
      (about 0x10fc 1 base).pending = .write 0x10fc 1 :: [] ∧ wfOffset 0x10fc = true ∧
      ({ base with pending := [.hardReset] } : State).pending = .hardReset :: [] ∧
      base.pending = [] := by decide

/-- `MisalignedHostAccessIsRefused`, both clauses. -/
theorem witness_misaligned :
    (0x1003 : Word).toNat % 4 ≠ 0 ∧
      ({ base with pending := [.read 0x1003] } : State).pending = .read 0x1003 :: [] ∧
      (about 0x1003 7 base).pending = .write 0x1003 7 :: [] := by decide

/-- A state in which the host will write a register, start a command and reset the engine. -/
def hostScript : State := { base with pending := [.write 0x014 5, .write 0x000 0x10, .hardReset] }

/-- `EngineNeverStops`. -/
theorem witness_host_ok : hostScript.HostOk := by unfold State.HostOk; decide

/-- `LaterAccessesHaveNoInfluence`. -/
theorem witness_run_now :
    ∃ t, Host.Core.run Sys2Proof.core [HostEvent.write 0x014 5, .write 0x000 0x10].length
      { base with pending := [.write 0x014 5, .write 0x000 0x10] } = .next t := ⟨_, rfl⟩

/-- The invariant holds of a state that holds a hash, about to take a command. -/
def hashed : State := { base with h := hInit, hValid := true, pending := [.write 0x000 0x11] }

/-- `StepKeepsMemoryCanonicalAndInBounds`, `StepKeepsLatchLegal`, `StepKeepsScheduleComplete`,
`StepKeepsHashDescendsFromInit`, `StepKeepsTheInvariant`. -/
theorem witness_invariant : hashed.Inv ∧ ∃ t, step hashed = .next t := by
  refine ⟨⟨⟨rfl, fun c hc => absurd hc List.not_mem_nil, by decide⟩, ⟨by decide, fun _ => rfl⟩,
    ⟨fun h => absurd h (by decide), fun _ => ⟨rfl, rfl⟩⟩, ⟨fun _ => ⟨[], rfl⟩, fun h => absurd h (by decide)⟩⟩, ?_⟩
  rw [step_of_command (v := 0x11) (rest := []) rfl]
  exact takeCommand_answers _ _

/-- The same statements: a state with a schedule, and one with an error latched. -/
theorem witness_invariant_schedule : (expandIntoKs key16).ScheduleOk :=
  expandIntoKs_scheduleOk (by decide)
theorem witness_invariant_latch : dirty.LatchOk := by unfold State.LatchOk; decide

/-- `LoadAndReadBytes`: three bytes at the end of `BUF`, of which the first is not at a word's start. -/
theorem witness_load_bytes :
    Config.legalBufBytes base.bufBytes = true ∧
      253 + ([1, 2, 3] : List Byte).length ≤ base.bufBytes := by decide

/-- `PadShapeAndLength`: an empty message, and a message too long. -/
theorem witness_pad :
    ([] : List Byte).length < 2 ^ 61 ∧ 2 ^ 61 ≤ (List.replicate (2 ^ 61) (0 : Byte)).length := by
  rw [List.length_replicate]; exact ⟨by decide, le_refl _⟩

/-- `DigestIsTheHashOfThePaddedMessage`. -/
theorem witness_digest :
    base.err = 0 ∧ Config.legalBufBytes base.bufBytes = true ∧ ∃ p, pad [0x61, 0x62, 0x63] = some p :=
  ⟨by decide, by decide, _, rfl⟩

/-- A has-master-key file of 72 bytes. -/
def masterFile : List Byte := [0x04, 0x03, 0x02, 0x01, 0x02, 0, 0, 0] ++ List.replicate 64 0

/-- `UnusedMasterSectionIsIgnored`: the shortest such file. -/
theorem witness_master_file : 72 ≤ masterFile.length ∧ be32At masterFile 4 = tagHasMasterKey := by decide

/-- `ShortFilesHaveNoResult`: the ends of both ranges. -/
theorem witness_short_files :
    (([1, 23] : List Nat).all fun n => decide (1 ≤ (masterFile.take n).length ∧
      (masterFile.take n).length ≤ 23)) = true ∧
    (([24, 71] : List Nat).all fun n => decide (24 ≤ (masterFile.take n).length ∧
      (masterFile.take n).length ≤ 71 ∧ be32At (masterFile.take n) 0 = 0x04030201 ∧
      be32At (masterFile.take n) 4 = 0x02000000)) = true := by decide

end Sys2Proof.Tests
end

section
/-! PROOFS. Obligations O47 and O60: every step keeps the buffer memory canonical and inside `BUF`, and the
helpers of `Machine/Bits.lean` and `memRead` compute what `spec/00_scope.md` section 4 says. -/

namespace Sys2Proof.Machine

variable {s t : State}

/-! ### Every command keeps the buffer memory canonical and in bounds

Of the seven commands only `AES_DECBLK` and `CBC_DECRYPT` write `BUF`, and both write only after the range
check of rule R256; every other outcome leaves `BUF` and its size as they were. -/

theorem latchError_memoryOk (e : EngineError) (info : Word) (h : s.MemoryOk) :
    (latchError e info s).MemoryOk :=
  h.congr (by simp) (by simp)

theorem expandIntoKs_memoryOk (h : s.MemoryOk) : (expandIntoKs s).MemoryOk :=
  h.congr expandIntoKs_buf expandIntoKs_bufBytes

theorem execShaInit_memoryOk (h : s.MemoryOk) (he : execShaInit s = .next t) : t.MemoryOk := by
  rcases execShaInit_cases he with ⟨-, rfl⟩ | ⟨-, rfl⟩
  · exact h
  · exact h.congr (by simp) (by simp)

theorem execShaBlock_memoryOk (h : s.MemoryOk) (he : execShaBlock s = .next t) : t.MemoryOk := by
  rcases execShaBlock_cases he with ⟨-, rfl⟩ | ⟨-, -, rfl⟩ | ⟨-, -, -, rfl⟩ | ⟨-, -, -, rfl⟩
  · exact h
  · exact latchError_memoryOk _ _ h
  · exact latchError_memoryOk _ _ h
  · exact h.congr (State.setHash_buf ..) (State.setHash_bufBytes ..)

theorem execAesKeyexp_memoryOk (h : s.MemoryOk) (he : execAesKeyexp s = .next t) : t.MemoryOk := by
  rcases execAesKeyexp_cases he with ⟨-, rfl⟩ | ⟨-, -, rfl⟩ | ⟨-, -, rfl⟩
  · exact h
  · exact latchError_memoryOk _ _ h
  · exact expandIntoKs_memoryOk h

theorem execAesDecblk_memoryOk (h : s.MemoryOk) (he : execAesDecblk s = .next t) : t.MemoryOk := by
  rcases execAesDecblk_cases he with ⟨-, rfl⟩ | ⟨-, -, rfl⟩ | ⟨-, -, -, rfl⟩ | ⟨-, -, hr, rfl⟩
  · exact h
  · exact latchError_memoryOk _ _ h
  · exact latchError_memoryOk _ _ h
  · exact memWrite_memoryOk h hr

theorem execCbcDecrypt_memoryOk (h : s.MemoryOk) (he : execCbcDecrypt s = .next t) :
    t.MemoryOk := by
  rcases execCbcDecrypt_cases he with ⟨-, rfl⟩ | ⟨-, -, rfl⟩ | ⟨-, -, -, rfl⟩ | ⟨-, -, -, -, rfl⟩ |
    ⟨-, hl, -, hr, rfl⟩
  · exact h
  · exact latchError_memoryOk _ _ h
  · exact latchError_memoryOk _ _ h
  · exact latchError_memoryOk _ _ h
  · have hw : s.src.toNat + 16 * (s.len.toNat / 16) ≤ (expandIntoKs s).bufBytes := by
      rw [expandIntoKs_bufBytes]; omega
    exact cbcLoop_memoryOk (expandIntoKs_memoryOk h) hw

theorem exec_memoryOk (i : Instr) (h : s.MemoryOk) (he : exec i s = .next t) : t.MemoryOk := by
  cases i with
  | nop => rw [execNop_cases he]; exact h
  | clear => rw [execClear_cases he]; exact h.congr (by simp) (by simp)
  | shaInit => exact execShaInit_memoryOk h he
  | shaBlock => exact execShaBlock_memoryOk h he
  | aesKeyexp => exact execAesKeyexp_memoryOk h he
  | aesDecblk => exact execAesDecblk_memoryOk h he
  | cbcDecrypt => exact execCbcDecrypt_memoryOk h he

/-- A window word at an aligned address of `BUF` lies wholly inside: `BUF_BYTES` is a multiple of 4
(rule R7). -/
theorem windowWrite_memoryOk {a : Nat} (v : Word) (ha : a < s.bufBytes) (h4 : a % 4 = 0)
    (h : s.MemoryOk) : (memWrite s a (bytesBe32 v)).MemoryOk := by
  have ⟨_, _, hlegal⟩ := h
  obtain ⟨hmod, -, -⟩ := (legalBufBytes_iff _).1 hlegal
  exact memWrite_memoryOk h (by omega)

/-- Settles O47: each operation a step can make keeps `MemoryOk`. -/
theorem stepKeepsMemoryCanonicalAndInBounds :
    Obligations.StepKeepsMemoryCanonicalAndInBounds := by
  intro s t hs hstep
  exact step_preserves (P := State.MemoryOk)
    (hPending := fun _ _ h => h.congr (by simp) (by simp))
    (hRead := fun _ _ h => h.congr (by simp) (by simp))
    (hKeylen := fun _ _ h => h.congr (by simp) (by simp))
    (hSrc := fun _ _ h => h.congr (by simp) (by simp))
    (hLen := fun _ _ h => h.congr (by simp) (by simp))
    (hKey := fun _ _ _ h => h.congr (by simp) (by simp))
    (hIv := fun _ _ _ h => h.congr (by simp) (by simp))
    (hWindow := fun _ _ v ha h4 h => windowWrite_memoryOk v ha h4 h)
    (hReset := fun _ h => hardReset_memoryOk h)
    (hIllegal := fun _ _ h _ => latchError_memoryOk _ _ h)
    (hExec := fun i _ _ h he => exec_memoryOk i h he)
    hs hstep

/-! ### The shifts as multiplication and division -/

theorem shiftLeft_eq_ofNat_mul {w : Nat} (x : BitVec w) (n : Nat) :
    x <<< n = BitVec.ofNat w (x.toNat * 2 ^ n) := by
  apply BitVec.eq_of_toNat_eq
  rw [BitVec.toNat_shiftLeft, Nat.shiftLeft_eq, BitVec.toNat_ofNat]

theorem ushiftRight_eq_ofNat_div {w : Nat} (x : BitVec w) (n : Nat) :
    x >>> n = BitVec.ofNat w (x.toNat / 2 ^ n) := by
  rw [← Nat.shiftRight_eq_div_pow, ← BitVec.toNat_ushiftRight, BitVec.ofNat_toNat,
    BitVec.setWidth_eq]

theorem shr32_toNat (x : Word) (n : Nat) : (shr32 x n).toNat = x.toNat / 2 ^ n := by
  rw [shr32, BitVec.toNat_ushiftRight, Nat.shiftRight_eq_div_pow]

theorem rotr32_eq (x : Word) (n : Nat) :
    rotr32 x n = shr32 x n ||| BitVec.ofNat 32 (x.toNat * 2 ^ (32 - n)) := by
  rw [rotr32, shiftLeft_eq_ofNat_mul]

theorem rotl8_eq (x : Byte) (n : Nat) :
    rotl8 x n = BitVec.ofNat 8 (x.toNat * 2 ^ n) ||| BitVec.ofNat 8 (x.toNat / 2 ^ (8 - n)) := by
  rw [rotl8, shiftLeft_eq_ofNat_mul, ushiftRight_eq_ofNat_div]

/-- `~x` of rule R9. -/
theorem not_eq_xor_ones (x : Word) : ~~~x = x ^^^ 0xFFFFFFFF :=
  (BitVec.xor_allOnes (x := x)).symm

/-- Settles O60: one clause per helper; the packing clauses are those of `Laws/Bits.lean`. -/
theorem notationMeansWhatItSays : Obligations.NotationMeansWhatItSays := by
  refine ⟨fun x y => ⟨BitVec.toNat_add x y, not_eq_xor_ones x⟩,
    fun x n _ _ => ⟨shr32_toNat x n, rotr32_eq x n, rfl⟩,
    fun x n _ _ => rotl8_eq x n,
    fun b0 b1 b2 b3 => ⟨?_, bytesBe32_be32 b0 b1 b2 b3⟩,
    fun w => ⟨rfl, be32_bytesBe32 w⟩,
    fun s a n i => memRead_getElem s a n i i.isLt⟩
  rw [be32_toNat]
  omega

end Sys2Proof.Machine
end

section
/-! PROOFS. The obligations of `spec/10_state.md`: which steps can write the registers and flags that only
commands write (O7, O33, O34), the invariant that every step keeps (O46, O48, O49, O50, O51), who reads `KS`
(O35), the register map seen from the host (O38, O39, O40, O41), the register bytes and the reset values
(O43, O52). -/

namespace Sys2Proof.Machine

variable {s t : State}

/-! ### What a command can do to the registers and flags

`execShaInit_cases` and its companions say what each command checks; here their outcomes stand in one list,
with the guards that the registers and flags depend on, so that a proof about these is one case analysis. -/

/-- The outcomes of the command `i` in the state `s`. Everything but `CLEAR` has an effect only while no
error is latched (rule R255), and a schedule or a hash is written only under the checks of rules R122, R147
and R190. -/
inductive CommandEffect (s : State) : Instr → State → Prop
  | unchanged {i : Instr} (hi : i ≠ .clear) : CommandEffect s i s
  | raised {i : Instr} (e : EngineError) (info : Word) (he : s.err = 0) :
      CommandEffect s i (latchError e info s)
  | cleared : CommandEffect s .clear (clearRegisters s)
  | hashLoaded (he : s.err = 0) : CommandEffect s .shaInit (s.setHash hInit).markHashValid
  | compressed (b : Vector Byte 64) (he : s.err = 0) (hv : s.hValid = true) :
      CommandEffect s .shaBlock (s.setHash (compress s.h b))
  | expanded (he : s.err = 0) (hk : legalKeyLength s = true) :
      CommandEffect s .aesKeyexp (expandIntoKs s)
  | decrypted (a : Nat) (b : Block) (he : s.err = 0) : CommandEffect s .aesDecblk (memWrite s a b)
  | chained (m a : Nat) (prev : Block) (he : s.err = 0) (hk : legalKeyLength s = true) :
      CommandEffect s .cbcDecrypt (cbcLoop m a prev (expandIntoKs s))

/-- A command answers with one of its effects. -/
theorem exec_effect {i : Instr} (h : exec i s = .next t) : CommandEffect s i t := by
  cases i with
  | nop => rw [execNop_cases h]; exact .unchanged (by decide)
  | clear => rw [execClear_cases h]; exact .cleared
  | shaInit =>
    rcases execShaInit_cases h with ⟨-, rfl⟩ | ⟨he, rfl⟩
    · exact .unchanged (by decide)
    · exact .hashLoaded he
  | shaBlock =>
    rcases execShaBlock_cases h with ⟨-, rfl⟩ | ⟨he, -, rfl⟩ | ⟨he, -, -, rfl⟩ | ⟨he, hv, -, rfl⟩
    · exact .unchanged (by decide)
    · exact .raised _ _ he
    · exact .raised _ _ he
    · exact .compressed _ he hv
  | aesKeyexp =>
    rcases execAesKeyexp_cases h with ⟨-, rfl⟩ | ⟨he, -, rfl⟩ | ⟨he, hk, rfl⟩
    · exact .unchanged (by decide)
    · exact .raised _ _ he
    · exact .expanded he hk
  | aesDecblk =>
    rcases execAesDecblk_cases h with ⟨-, rfl⟩ | ⟨he, -, rfl⟩ | ⟨he, -, -, rfl⟩ | ⟨he, -, -, rfl⟩
    · exact .unchanged (by decide)
    · exact .raised _ _ he
    · exact .raised _ _ he
    · exact .decrypted _ _ he
  | cbcDecrypt =>
    rcases execCbcDecrypt_cases h with ⟨-, rfl⟩ | ⟨he, -, rfl⟩ | ⟨he, -, -, rfl⟩ | ⟨he, -, -, -, rfl⟩ |
      ⟨he, -, hk, -, rfl⟩
    · exact .unchanged (by decide)
    · exact .raised _ _ he
    · exact .raised _ _ he
    · exact .raised _ _ he
    · exact .chained _ _ _ he hk

/-- While an error is latched only `CLEAR` has an effect (rule R255). -/
theorem CommandEffect.of_latched {i : Instr} (h : CommandEffect s i t) (hs : s.err ≠ 0) :
    t = s ∨ (i = .clear ∧ t = clearRegisters s) := by
  cases h with
  | unchanged => exact .inl rfl
  | cleared => exact .inr ⟨rfl, rfl⟩
  | raised _ _ he | hashLoaded he | compressed _ he | expanded he | decrypted _ _ he
  | chained _ _ _ he => exact absurd he hs

theorem CommandEffect.hash_frame {i : Instr} (h : CommandEffect s i t) :
    i = .clear ∨ i = .shaInit ∨ i = .shaBlock ∨ (t.h = s.h ∧ t.hValid = s.hValid) := by
  cases h with
  | cleared => exact .inl rfl
  | hashLoaded => exact .inr (.inl rfl)
  | compressed => exact .inr (.inr (.inl rfl))
  | unchanged | raised | expanded | decrypted | chained => simp

theorem CommandEffect.schedule_frame {i : Instr} (h : CommandEffect s i t) :
    i = .clear ∨ i = .aesKeyexp ∨ i = .cbcDecrypt ∨
      (t.ks = s.ks ∧ t.ksNk = s.ksNk ∧ t.ksValid = s.ksValid) := by
  cases h with
  | cleared => exact .inl rfl
  | expanded => exact .inr (.inl rfl)
  | chained => exact .inr (.inr (.inl rfl))
  | unchanged | raised | hashLoaded | compressed | decrypted => simp

/-! ### What a step can do to them -/

/-- `t` holds the registers and flags that the host cannot write as `s` holds them. -/
structure KeepsCommandRegisters (s t : State) : Prop where
  h : t.h = s.h
  hValid : t.hValid = s.hValid
  ks : t.ks = s.ks
  ksNk : t.ksNk = s.ksNk
  ksValid : t.ksValid = s.ksValid
  err : t.err = s.err
  errinfo : t.errinfo = s.errinfo

theorem setPending_keepsCommandRegisters (s : State) (p : List HostEvent) :
    KeepsCommandRegisters s (s.setPending p) := ⟨rfl, rfl, rfl, rfl, rfl, rfl, rfl⟩

/-- The ways a step can end, as far as these registers and flags are concerned, with the host event that
was taken. -/
inductive StepEffect (s : State) : State → Prop
  | kept {t : State} (h : KeepsCommandRegisters s t) : StepEffect s t
  | reset (rest : List HostEvent) (hp : s.pending = .hardReset :: rest) :
      StepEffect s (hardReset (s.setPending rest))
  | illegal (w : Word) (rest : List HostEvent) (he : s.err = 0) :
      StepEffect s (latchError .illegalCommand w (s.setPending rest))
  | command {t : State} (i : Instr) (rest : List HostEvent)
      (hp : s.pending = .write 0x000 (encode i) :: rest)
      (h : CommandEffect (s.setPending rest) i t) : StepEffect s t

/-- Only the command word of `i` decodes to `i` (rule R92). -/
theorem eq_encode_of_decode {v : Word} {i : Instr} (h : decode v = .command i) : v = encode i := by
  rw [decode_eq_tests] at h
  repeat' split at h
  all_goals cases h
  all_goals assumption

/-- `CMD` is offset 0. -/
theorem offset_eq_cmd {off : Offset} (h : off.val.toNat = 0) : off.val = 0x000 :=
  BitVec.eq_of_toNat_eq h

theorem step_effect (h : step s = .next t) : StepEffect s t := by
  rcases step_cases h with ⟨-, rfl⟩ | ⟨e, rest, hp, hacc⟩
  · exact .kept ⟨rfl, rfl, rfl, rfl, rfl, rfl, rfl⟩
  rcases hostAccess_cases hacc with ⟨off, -, rfl⟩ | ⟨off, v, rfl, hw⟩ | ⟨rfl, rfl⟩
  · exact .kept ⟨rfl, rfl, rfl, rfl, rfl, rfl, rfl⟩
  · rcases hostWrite32_cases hw with
      ⟨h0, hc⟩ | rfl | rfl | rfl | rfl | ⟨i, rfl⟩ | ⟨i, rfl⟩ | ⟨a, -, -, rfl⟩
    · rcases takeCommand_cases hc with ⟨i, hd, hx⟩ | ⟨w, -, ⟨-, rfl⟩ | ⟨he, rfl⟩⟩
      · rw [offset_eq_cmd h0, eq_encode_of_decode hd] at hp
        exact .command i rest hp (exec_effect hx)
      · exact .kept (setPending_keepsCommandRegisters s rest)
      · exact .illegal w rest he
    all_goals exact .kept ⟨rfl, rfl, rfl, rfl, rfl, rfl, rfl⟩
  · exact .reset rest hp

/-! ### Who writes the latch, the hash and the schedule -/

/-- Settles O7: of the ways a step can end, only hard reset and `CLEAR` write a latch that is not 0. -/
theorem firstErrorStaysLatched : Obligations.FirstErrorStaysLatched := by
  intro s t hs hstep
  cases step_effect hstep with
  | kept h => exact .inl ⟨h.err, h.errinfo⟩
  | reset rest hp => exact .inr ⟨rfl, rfl, rest, .inl hp⟩
  | illegal _ _ he => exact absurd he hs
  | command i rest hp h =>
    rcases h.of_latched hs with rfl | ⟨rfl, rfl⟩
    · exact .inl ⟨rfl, rfl⟩
    · exact .inr ⟨rfl, rfl, rest, .inr hp⟩

/-- Settles O33: a command other than the three listed, and every other step but hard reset, leaves `H` and
`H_VALID` alone. -/
theorem onlyShaCommandsAndResetsWriteHash : Obligations.OnlyShaCommandsAndResetsWriteHash := by
  intro s t hstep hne
  have changed {t' : State} (ht : t'.h = s.h ∧ t'.hValid = s.hValid) :
      ¬ (t'.h ≠ s.h ∨ t'.hValid ≠ s.hValid) := by simp [ht]
  cases step_effect hstep with
  | kept h => exact absurd hne (changed ⟨h.h, h.hValid⟩)
  | reset rest hp => exact ⟨rest, .inl hp⟩
  | illegal => exact absurd hne (changed ⟨rfl, rfl⟩)
  | command i rest hp h =>
    rcases h.hash_frame with rfl | rfl | rfl | hframe
    · exact ⟨rest, .inr (.inl hp)⟩
    · exact ⟨rest, .inr (.inr (.inl hp))⟩
    · exact ⟨rest, .inr (.inr (.inr hp))⟩
    · exact absurd hne (changed hframe)

/-- Settles O34: a command other than the three listed, and every other step but hard reset, leaves `KS`,
`KS_NK` and `KS_VALID` alone. -/
theorem onlyKeyExpansionsAndResetsWriteSchedule :
    Obligations.OnlyKeyExpansionsAndResetsWriteSchedule := by
  intro s t hstep hne
  have changed {t' : State} (ht : t'.ks = s.ks ∧ t'.ksNk = s.ksNk ∧ t'.ksValid = s.ksValid) :
      ¬ (t'.ks ≠ s.ks ∨ t'.ksNk ≠ s.ksNk ∨ t'.ksValid ≠ s.ksValid) := by simp [ht]
  cases step_effect hstep with
  | kept h => exact absurd hne (changed ⟨h.ks, h.ksNk, h.ksValid⟩)
  | reset rest hp => exact ⟨rest, .inl hp⟩
  | illegal => exact absurd hne (changed ⟨rfl, rfl, rfl⟩)
  | command i rest hp h =>
    rcases h.schedule_frame with rfl | rfl | rfl | hframe
    · exact ⟨rest, .inr (.inl hp)⟩
    · exact ⟨rest, .inr (.inr (.inl hp))⟩
    · exact ⟨rest, .inr (.inr (.inr hp))⟩
    · exact absurd hne (changed hframe)

/-! ### The invariant -/

theorem latchOk_of_zero (he : s.err = 0) (hi : s.errinfo = 0) : s.LatchOk :=
  ⟨by simp [he], fun _ => hi⟩

theorem scheduleOk_of_zero (hv : s.ksValid = false) (hn : s.ksNk = 0)
    (hk : s.ks = Vector.replicate 60 0) : s.ScheduleOk :=
  ⟨fun h => by simp [hv] at h, fun _ => ⟨hn, hk⟩⟩

theorem hashOk_of_zero (hv : s.hValid = false) (hh : s.h = Vector.replicate 8 0) : s.HashOk :=
  ⟨fun h => by simp [hv] at h, fun _ => hh⟩

/-- `SHA_INIT` leaves `HINIT` after no compression. -/
theorem hashLoaded_hashOk (s : State) : ((s.setHash hInit).markHashValid).HashOk :=
  ⟨fun _ => ⟨[], rfl⟩, fun h => by cases h⟩

theorem CommandEffect.latchOk {i : Instr} (h : CommandEffect s i t) (hs : s.LatchOk) : t.LatchOk := by
  cases h with
  | raised => exact latchError_latchOk _ _ _
  | cleared => exact latchOk_of_zero rfl rfl
  | unchanged | hashLoaded | compressed | expanded | decrypted | chained =>
    exact hs.congr (by simp) (by simp)

theorem CommandEffect.scheduleOk {i : Instr} (h : CommandEffect s i t) (hs : s.ScheduleOk) :
    t.ScheduleOk := by
  cases h with
  | cleared => exact scheduleOk_of_zero rfl rfl rfl
  | expanded _ hk => exact expandIntoKs_scheduleOk hk
  | chained m a prev _ hk =>
    exact (expandIntoKs_scheduleOk hk).congr (cbcLoop_ks ..) (cbcLoop_ksNk ..) (cbcLoop_ksValid ..)
  | unchanged | raised | hashLoaded | compressed | decrypted =>
    exact hs.congr (by simp) (by simp) (by simp)

theorem CommandEffect.hashOk {i : Instr} (h : CommandEffect s i t) (hs : s.HashOk) : t.HashOk := by
  cases h with
  | cleared => exact hashOk_of_zero rfl rfl
  | hashLoaded => exact hashLoaded_hashOk s
  | compressed b _ hv => exact compress_hashOk hs hv b
  | unchanged | raised | expanded | decrypted | chained => exact hs.congr (by simp) (by simp)

/-- A predicate on the registers and flags that the host cannot write is kept by every step when hard
reset, an illegal command word and every command keep it. -/
theorem step_preserves_commandRegisters {P : State → Prop}
    (hKept : ∀ {s t}, KeepsCommandRegisters s t → P s → P t)
    (hReset : ∀ s, P (hardReset s))
    (hIllegal : ∀ w s, P s → P (latchError .illegalCommand w s))
    (hCommand : ∀ {s i t}, CommandEffect s i t → P s → P t)
    (hs : P s) (hstep : step s = .next t) : P t := by
  have hPending (rest : List HostEvent) := hKept (setPending_keepsCommandRegisters s rest) hs
  cases step_effect hstep with
  | kept h => exact hKept h hs
  | reset rest => exact hReset _
  | illegal w rest => exact hIllegal _ _ (hPending rest)
  | command i rest _ h => exact hCommand h (hPending rest)

/-- Settles O48: an error is latched with a listed code, and `ERR` returns to 0 only together with
`ERRINFO`. -/
theorem stepKeepsLatchLegal : Obligations.StepKeepsLatchLegal := by
  intro s t hs hstep
  exact step_preserves_commandRegisters (P := State.LatchOk)
    (hKept := fun h hs => hs.congr h.err h.errinfo)
    (hReset := fun _ => latchOk_of_zero rfl rfl)
    (hIllegal := fun w s _ => latchError_latchOk _ w s)
    (hCommand := CommandEffect.latchOk)
    hs hstep

/-- Settles O49: a schedule is written whole by a key expansion with a legal key length, or zeroed. -/
theorem stepKeepsScheduleComplete : Obligations.StepKeepsScheduleComplete := by
  intro s t hs hstep
  exact step_preserves_commandRegisters (P := State.ScheduleOk)
    (hKept := fun h hs => hs.congr h.ks h.ksNk h.ksValid)
    (hReset := fun _ => scheduleOk_of_zero rfl rfl rfl)
    (hIllegal := fun _ _ hs => hs.congr rfl rfl rfl)
    (hCommand := CommandEffect.scheduleOk)
    hs hstep

/-- Settles O50: `SHA_INIT` starts the chain of compressions, `SHA_BLOCK` adds one to a chain that is
there. -/
theorem stepKeepsHashDescendsFromInit : Obligations.StepKeepsHashDescendsFromInit := by
  intro s t hs hstep
  exact step_preserves_commandRegisters (P := State.HashOk)
    (hKept := fun h hs => hs.congr h.h h.hValid)
    (hReset := fun _ => hashOk_of_zero rfl rfl)
    (hIllegal := fun _ _ hs => hs.congr rfl rfl)
    (hCommand := CommandEffect.hashOk)
    hs hstep

/-- Settles O51: each part of the invariant is kept by itself. -/
theorem stepKeepsTheInvariant : Obligations.StepKeepsTheInvariant := by
  intro s t hs hstep
  exact {
    memory := stepKeepsMemoryCanonicalAndInBounds s t hs.memory hstep
    latch := stepKeepsLatchLegal s t hs.latch hstep
    schedule := stepKeepsScheduleComplete s t hs.schedule hstep
    hash := stepKeepsHashDescendsFromInit s t hs.hash hstep }

theorem reset_inv : State.reset.Inv where
  memory := reset_memoryOk
  latch := latchOk_of_zero rfl rfl
  schedule := scheduleOk_of_zero rfl rfl rfl
  hash := hashOk_of_zero rfl rfl

/-- Settles O46: nothing is latched and the schedule and the hash are zero and not valid; the size of `BUF`
is legal whatever the free choice is. -/
theorem resetMeetsTheInvariant : Obligations.ResetMeetsTheInvariant := by
  obtain ⟨hmod, hlow, hhigh⟩ := (legalBufBytes_iff _).1 legalBufBytes_bufBytes
  exact ⟨reset_inv, fun e he => absurd he List.not_mem_nil, rfl, rfl, hmod, hlow, hhigh, rfl, rfl⟩

/-- Settles O52: `State.reset` read field by field; with no byte listed, `BUF` reads as the free value. -/
theorem resetValues : Obligations.ResetValues := by
  refine ⟨rfl, rfl, rfl, fun i => ?_, fun i => ?_, fun i => ?_, rfl, fun i => ?_, rfl, rfl, rfl, rfl,
    rfl, fun _ => rfl⟩
  all_goals exact Vector.getElem_replicate ..

/-! ### Who reads the words of `KS`

The same operation in two states that differ in the words of `KS` alone. -/

/-- If `r` answers a next state, then so does `r'`, and the two differ at most in the words of `KS`. -/
def AgreeButKs (r r' : Result) : Prop :=
  ∀ t, r = .next t → ∃ u, r' = .next u ∧ u = { t with ks := u.ks }

theorem agreeButKs_next {t u : State} (h : u = { t with ks := u.ks }) :
    AgreeButKs (.next t) (.next u) := fun _ ht => ⟨u, rfl, by cases ht; exact h⟩

theorem agreeButKs_refl (r : Result) : AgreeButKs r r := fun t ht => ⟨t, ht, rfl⟩

theorem agreeButKs_ite {c : Prop} [Decidable c] {a b a' b' : Result} (ha : AgreeButKs a a')
    (hb : AgreeButKs b b') : AgreeButKs (if c then a else b) (if c then a' else b') := by
  split
  · exact ha
  · exact hb

variable (s) (ks : Vector Word 60)

theorem raise_agreeButKs (e : EngineError) (info : Word) :
    AgreeButKs (raise e info s) (raise e info { s with ks := ks }) := agreeButKs_next rfl

/-- The gate reads `ERR` alone. -/
theorem unlessLatched_agreeButKs {b b' : Result} (h : AgreeButKs b b') :
    AgreeButKs (unlessLatched s b) (unlessLatched { s with ks := ks } b') :=
  agreeButKs_ite h (agreeButKs_next rfl)

/-- A key expansion writes all of `KS` and reads none of it. -/
theorem expandIntoKs_withKs : expandIntoKs { s with ks := ks } = expandIntoKs s := rfl

theorem ivBytes_withKs : ivBytes { s with ks := ks } = ivBytes s := rfl

theorem execShaBlock_agreeButKs :
    AgreeButKs (execShaBlock s) (execShaBlock { s with ks := ks }) := by
  refine unlessLatched_agreeButKs s ks (agreeButKs_ite (raise_agreeButKs s ks _ _)
    (agreeButKs_ite (raise_agreeButKs s ks _ _) (agreeButKs_next ?_)))
  rw [memRead_congr (s := { s with ks := ks }) (t := s) rfl rfl]
  rfl

theorem execAesKeyexp_agreeButKs :
    AgreeButKs (execAesKeyexp s) (execAesKeyexp { s with ks := ks }) := by
  refine unlessLatched_agreeButKs s ks (agreeButKs_ite (raise_agreeButKs s ks _ _) ?_)
  rw [expandIntoKs_withKs]
  exact agreeButKs_refl _

theorem execCbcDecrypt_agreeButKs :
    AgreeButKs (execCbcDecrypt s) (execCbcDecrypt { s with ks := ks }) := by
  refine unlessLatched_agreeButKs s ks (agreeButKs_ite (raise_agreeButKs s ks _ _)
    (agreeButKs_ite (raise_agreeButKs s ks _ _) (agreeButKs_ite (raise_agreeButKs s ks _ _) ?_)))
  rw [expandIntoKs_withKs, ivBytes_withKs]
  exact agreeButKs_refl _

theorem exec_agreeButKs {i : Instr} (hi : i ≠ .aesDecblk) :
    AgreeButKs (exec i s) (exec i { s with ks := ks }) := by
  cases i with
  | nop => exact agreeButKs_next rfl
  | clear => exact agreeButKs_next rfl
  | shaInit => exact unlessLatched_agreeButKs s ks (agreeButKs_next rfl)
  | shaBlock => exact execShaBlock_agreeButKs s ks
  | aesKeyexp => exact execAesKeyexp_agreeButKs s ks
  | aesDecblk => exact absurd rfl hi
  | cbcDecrypt => exact execCbcDecrypt_agreeButKs s ks

theorem takeCommand_agreeButKs {v : Word} (hv : v ≠ encode .aesDecblk) :
    AgreeButKs (takeCommand v s) (takeCommand v { s with ks := ks }) := by
  unfold takeCommand
  split
  · next i hd =>
    exact exec_agreeButKs s ks fun hi => hv (hi ▸ eq_encode_of_decode hd)
  · exact unlessLatched_agreeButKs s ks (raise_agreeButKs s ks _ _)

/-- No register that the host can read shows a word of `KS`. -/
theorem hostRead32_withKs (off : Offset) : hostRead32 off { s with ks := ks } = hostRead32 off s := by
  unfold hostRead32
  dsimp only
  split <;> rfl

theorem hostWrite32_agreeButKs {off : Offset} {v : Word}
    (hv : off.val = 0x000 → v ≠ encode .aesDecblk) :
    AgreeButKs (hostWrite32 off v s) (hostWrite32 off v { s with ks := ks }) := by
  unfold hostWrite32
  dsimp only
  split
  · next hm => exact takeCommand_agreeButKs s ks (hv (offset_eq_cmd (hostMap_cmd hm)))
  all_goals exact agreeButKs_next rfl

theorem hostAccess_agreeButKs {e : HostEvent} (he : e ≠ .write 0x000 (encode .aesDecblk)) :
    AgreeButKs (hostAccess e s) (hostAccess e { s with ks := ks }) := by
  cases e with
  | read off =>
    simp only [hostAccess, hostRead32_withKs]
    split
    · exact agreeButKs_next rfl
    · exact agreeButKs_refl _
  | write off v =>
    simp only [hostAccess]
    split
    · exact hostWrite32_agreeButKs s ks fun h0 hv => he (by rw [← hv, ← h0])
    · exact agreeButKs_refl _
  | hardReset => exact agreeButKs_next rfl

theorem step_agreeButKs (hne : ∀ rest, s.pending ≠ .write 0x000 (encode .aesDecblk) :: rest) :
    AgreeButKs (step s) (step { s with ks := ks }) := by
  unfold step nextEvent
  dsimp only
  split
  · exact agreeButKs_next rfl
  · next e rest hp =>
    exact hostAccess_agreeButKs (s.setPending rest) ks fun he => hne rest (he ▸ hp)

/-- Settles O35: every host event but the word of `AES_DECBLK` has the same outcome whatever `KS` holds. -/
theorem scheduleWordsAreSeenOnlyByAesDecblk : Obligations.ScheduleWordsAreSeenOnlyByAesDecblk :=
  fun s t ks hne hstep => step_agreeButKs s ks hne t hstep

/-! ### The register map as a store

What the host reads at a target of the map, and what a write to it stores; a write to `CMD` is a command and
stores nothing. -/

/-- The word the host reads at a target. -/
def readAt (x : HostTarget) (s : State) : Word :=
  match x with
  | .cmd => 0
  | .status => status s
  | .err => s.err.setWidth 32
  | .errinfo => s.errinfo
  | .keylen => s.keylen
  | .src => s.src
  | .len => s.len
  | .key i => s.key[i]
  | .iv i => s.iv[i]
  | .h i => s.h[i]
  | .window a => windowWord s a
  | .nothing => 0

/-- The state after the host has stored `v` at a target. -/
def storeAt (x : HostTarget) (v : Word) (s : State) : State :=
  match x with
  | .keylen => s.setKeylen v
  | .src => s.setSrc v
  | .len => s.setLen v
  | .key i => s.setKeyWord i v
  | .iv i => s.setIvWord i v
  | .window a => memWrite s a (bytesBe32 v)
  | _ => s

/-- The targets at which a host write stores its word (rules R22, R63). -/
def HostTarget.stores : HostTarget → Bool
  | .keylen => true
  | .src => true
  | .len => true
  | .key _ => true
  | .iv _ => true
  | .window _ => true
  | _ => false

theorem hostRead32_eq_readAt (off : Offset) :
    hostRead32 off s = readAt (hostMap s.bufBytes off) s := by
  unfold hostRead32
  split <;> next hm => rw [hm]; rfl

theorem hostWrite32_eq_storeAt {off : Offset} (v : Word) (h0 : off.val.toNat ≠ 0) :
    hostWrite32 off v s = .next (storeAt (hostMap s.bufBytes off) v s) := by
  unfold hostWrite32
  split
  · next hm => exact absurd (hostMap_cmd hm) h0
  all_goals next hm => rw [hm]; rfl

@[simp] theorem storeAt_bufBytes (x : HostTarget) (v : Word) :
    (storeAt x v s).bufBytes = s.bufBytes := by cases x <;> rfl

@[simp] theorem storeAt_err (x : HostTarget) (v : Word) : (storeAt x v s).err = s.err := by
  cases x <;> rfl

theorem storeAt_of_not_stores {x : HostTarget} (v : Word) (hx : x.stores = false) :
    storeAt x v s = s := by
  cases x with
  | keylen | src | len | key | iv | window => cases hx
  | cmd | status | err | errinfo | h | nothing => rfl

/-! ### A word of the buffer window -/

theorem windowWord_memWrite_same (a : Nat) (v : Word) :
    windowWord (memWrite s a (bytesBe32 v)) a = v := by
  have byte (i : Nat) (hi : i < 4) : readByte (memWrite s a (bytesBe32 v)) (a + i) = (bytesBe32 v)[i] :=
    readByte_memWrite_inside s a _ i hi
  rw [windowWord, show readByte (memWrite s a (bytesBe32 v)) a = _ from byte 0 (by decide),
    byte 1 (by decide), byte 2 (by decide), byte 3 (by decide), be32_bytesBe32]

theorem windowWord_memWrite_apart {a c : Nat} (v : Word) (h : c + 4 ≤ a ∨ a + 4 ≤ c) :
    windowWord (memWrite s a (bytesBe32 v)) c = windowWord s c := by
  have byte (i : Nat) (hi : i < 4) :
      readByte (memWrite s a (bytesBe32 v)) (c + i) = readByte s (c + i) :=
    readByte_memWrite_outside s a _ _ (by omega)
  rw [windowWord, show readByte (memWrite s a (bytesBe32 v)) c = _ from byte 0 (by decide),
    byte 1 (by decide), byte 2 (by decide), byte 3 (by decide)]
  rfl

/-! ### Reading a target after a store -/

theorem readAt_storeAt_same {x : HostTarget} (v : Word) (hx : x.stores = true) :
    readAt x (storeAt x v s) = v := by
  cases x with
  | keylen | src | len => rfl
  | key i => simp [readAt, storeAt]
  | iv i => simp [readAt, storeAt]
  | window a => exact windowWord_memWrite_same s a v
  | cmd | status | err | errinfo | h | nothing => cases hx

/-- Two targets whose stores do not overlap: they differ, and window words have no byte in common. -/
def HostTarget.Apart (x y : HostTarget) : Prop :=
  x ≠ y ∧ ∀ a c, x = .window a → y = .window c → c + 4 ≤ a ∨ a + 4 ≤ c

theorem readAt_storeAt_apart {x y : HostTarget} (v : Word) (h : x.Apart y) :
    readAt y (storeAt x v s) = readAt y s := by
  obtain ⟨hne, hwin⟩ := h
  cases x with
  | keylen => cases y with
    | keylen => exact absurd rfl hne
    | _ => rfl
  | src => cases y with
    | src => exact absurd rfl hne
    | _ => rfl
  | len => cases y with
    | len => exact absurd rfl hne
    | _ => rfl
  | key i => cases y with
    | key j =>
      have hij : i.val ≠ j.val := fun h => hne (by rw [Fin.ext h])
      simp [readAt, storeAt, hij]
    | _ => rfl
  | iv i => cases y with
    | iv j =>
      have hij : i.val ≠ j.val := fun h => hne (by rw [Fin.ext h])
      simp [readAt, storeAt, hij]
    | _ => rfl
  | window a => cases y with
    | window c => exact windowWord_memWrite_apart s v (hwin a c rfl rfl)
    | _ => rfl
  | cmd | status | err | errinfo | h | nothing => rfl

/-! ### Where the targets stand -/

/-- The offset of a target that stores (rule R30). -/
def HostTarget.offset : HostTarget → Nat
  | .keylen => 0x010
  | .src => 0x014
  | .len => 0x018
  | .key i => 0x020 + 4 * i.val
  | .iv i => 0x040 + 4 * i.val
  | .window a => 0x1000 + a
  | _ => 0

/-- A target that stores stands at its own offset alone. -/
theorem hostMap_offset {b : Nat} {off : Offset} (hx : (hostMap b off).stores = true) :
    off.val.toNat = (hostMap b off).offset := by
  have h4 := offset_aligned off
  rcases hostMap_cases (rfl : hostMap b off = _) with
    ⟨ho, hm⟩ | ⟨ho, hm⟩ | ⟨ho, hm⟩ | ⟨ho, hm⟩ | ⟨ho, hm⟩ | ⟨ho, hm⟩ | ⟨ho, hm⟩ | ⟨ho, hm⟩ | ⟨ho, hm⟩ |
    ⟨ho, hm⟩ | ⟨ho, hm⟩ | ⟨ho, hm⟩ <;> rw [hm] at hx ⊢
  all_goals simp only [HostTarget.stores, Bool.false_eq_true] at hx
  all_goals simp only [HostTarget.offset, Fin.val_ofNat]; omega

/-- The offsets of rules R22 and R63 are those of targets that store. -/
theorem hostMap_stores_iff (b : Nat) (off : Offset) :
    (hostMap b off).stores = true ↔
      off.val.toNat = 0x010 ∨ off.val.toNat = 0x014 ∨ off.val.toNat = 0x018 ∨
      (0x020 ≤ off.val.toNat ∧ off.val.toNat < 0x050) ∨
      (0x1000 ≤ off.val.toNat ∧ off.val.toNat < 0x1000 + b) := by
  rcases hostMap_cases (rfl : hostMap b off = _) with
    ⟨ho, hm⟩ | ⟨ho, hm⟩ | ⟨ho, hm⟩ | ⟨ho, hm⟩ | ⟨ho, hm⟩ | ⟨ho, hm⟩ | ⟨ho, hm⟩ | ⟨ho, hm⟩ | ⟨ho, hm⟩ |
    ⟨ho, hm⟩ | ⟨ho, hm⟩ | ⟨ho, hm⟩ <;> rw [hm]
  all_goals simp only [HostTarget.stores, Bool.false_eq_true, true_iff, false_iff]; omega

/-- Different offsets, one of which stores, have targets apart. -/
theorem hostMap_apart {b : Nat} {off off' : Offset} (hne : off' ≠ off)
    (hx : (hostMap b off).stores = true) : (hostMap b off).Apart (hostMap b off') := by
  have hval : off'.val.toNat ≠ off.val.toNat := fun h => hne (Subtype.ext (BitVec.eq_of_toNat_eq h))
  have h4 := offset_aligned off
  have h4' := offset_aligned off'
  refine ⟨fun heq => hval ?_, fun a c ha hc => ?_⟩
  · rw [hostMap_offset hx, hostMap_offset (heq ▸ hx), heq]
  · have ⟨hoff, _⟩ := hostMap_window ha
    have ⟨hoff', _⟩ := hostMap_window hc
    omega

/-- Settles O38: such an offset names a target that stores, and a target that stores reads back. -/
theorem hostReadsBackWhatItWrote : Obligations.HostReadsBackWhatItWrote := by
  intro s off v hoff
  have hx := (hostMap_stores_iff s.bufBytes off).2 hoff
  refine ⟨_, hostWrite32_eq_storeAt s v (by omega), ?_⟩
  rw [hostRead32_eq_readAt, storeAt_bufBytes, readAt_storeAt_same s v hx]

/-- Settles O39: a write either stores nothing, or stores apart from every other offset's target. -/
theorem hostWriteLeavesOtherOffsets : Obligations.HostWriteLeavesOtherOffsets := by
  intro s off v h0
  refine ⟨_, hostWrite32_eq_storeAt s v fun h => h0 (offset_eq_cmd h), storeAt_err .., ?_⟩
  intro off' hne
  cases hx : (hostMap s.bufBytes off).stores with
  | false => rw [storeAt_of_not_stores s v hx]
  | true =>
    rw [hostRead32_eq_readAt, storeAt_bufBytes, readAt_storeAt_apart s v (hostMap_apart hne hx),
      ← hostRead32_eq_readAt]

/-- A write to an offset that is neither `CMD` nor one that stores changes nothing. -/
theorem hostWrite32_ignored {off : Offset} (v : Word) (h0 : off.val.toNat ≠ 0)
    (hx : ¬ (hostMap s.bufBytes off).stores = true) : hostWrite32 off v s = .next s := by
  rw [hostWrite32_eq_storeAt s v h0, storeAt_of_not_stores s v (Bool.eq_false_of_not_eq_true hx)]

/-- The map has nothing at the reserved and unmapped offsets (rule R31). -/
theorem hostMap_nothing {b : Nat} {off : Offset}
    (h : off.val.toNat = 0x01C ∨ (0x050 ≤ off.val.toNat ∧ off.val.toNat < 0x060) ∨
      (0x080 ≤ off.val.toNat ∧ off.val.toNat < 0x1000) ∨ 0x1000 + b ≤ off.val.toNat) :
    hostMap b off = .nothing := by
  have hcases := hostMap_cases (rfl : hostMap b off = _)
  by_contra hne
  simp only [hne, and_false, or_false] at hcases
  omega

/-- Settles O40: none of these offsets stores, the map has nothing at the reserved ones, and a read of `CMD`
or of nothing is 0. -/
theorem reservedOffsetsReadZeroAndIgnoreWrites :
    Obligations.ReservedOffsetsReadZeroAndIgnoreWrites := by
  intro s off v
  have ignored (h0 : off.val.toNat ≠ 0) := hostWrite32_ignored (off := off) s v h0
  rw [hostMap_stores_iff] at ignored
  refine ⟨fun hoff => ignored (by omega) (by omega),
    fun hoff => ⟨ignored (by omega) (by omega), ?_⟩, fun hoff => ?_⟩
  · rw [hostRead32_eq_readAt, hostMap_nothing hoff, readAt]
  · have hm : hostMap s.bufBytes off = .cmd := if_pos hoff
    rw [hostRead32_eq_readAt, hm, readAt]

/-! ### The fields of `STATUS` -/

/-- `STATUS` bit by bit, in the order of its concatenation. -/
theorem status_getLsbD (i : Nat) :
    (status s).getLsbD i =
      if i = 0 then false else if i = 1 then errf s else if i = 2 then s.hValid
      else if i = 3 then s.ksValid else if i < 8 then false else s.ksNk.getLsbD (i - 8) := by
  unfold status
  change BitVec.getLsbD (w := 20 + 4 + 4 + 1 + 1 + 1 + 1) (_ ++ _) i = _
  simp only [BitVec.getLsbD_append]
  match i with
  | 0 | 1 | 2 | 3 => simp [busy]
  | i + 4 =>
    by_cases hlow : i < 4
    · simp [hlow]
    by_cases hmid : i - 4 < 4
    · have h8 : ¬ i + 4 < 8 := by omega
      simp [hlow, hmid, h8]
    · simp [hlow, hmid, BitVec.getLsbD_of_ge s.ksNk (i - 4) (by omega)]

/-- Above the four flags stands `KS_NK` alone. -/
theorem status_getLsbD_of_four_le {i : Nat} (h : 4 ≤ i) :
    (status s).getLsbD i = (decide (8 ≤ i) && s.ksNk.getLsbD (i - 8)) := by
  rw [status_getLsbD, if_neg (by omega), if_neg (by omega), if_neg (by omega), if_neg (by omega)]
  by_cases h8 : i < 8 <;> simp [h8]
  omega

/-- A field of a word is what its bits are. -/
theorem extractLsb'_eq_of_getLsbD {w n k : Nat} {x : BitVec w} {y : BitVec n}
    (h : ∀ i < n, x.getLsbD (k + i) = y.getLsbD i) : x.extractLsb' k n = y := by
  apply BitVec.eq_of_getLsbD_eq
  intro i hi
  simp [hi, h i hi]

/-- Settles O41: each field is read off `STATUS` bit by bit; after reset all of them are 0. -/
theorem statusFields : Obligations.StatusFields := by
  intro s
  have hread : hostRead32 ⟨0x004, rfl⟩ s = status s := rfl
  rw [hread]
  refine ⟨status_getLsbD s 0, ?_, status_getLsbD s 2, status_getLsbD s 3,
    extractLsb'_eq_of_getLsbD fun i hi => ?_, extractLsb'_eq_of_getLsbD fun i hi => ?_,
    extractLsb'_eq_of_getLsbD fun i hi => ?_, fun _ => rfl, rfl⟩
  · rw [status_getLsbD, if_neg (by decide), if_pos rfl, errf, Bool.eq_iff_iff]
    simp
  all_goals rw [status_getLsbD_of_four_le s (by omega)]
  · simp; omega
  · simp
  · rw [BitVec.getLsbD_of_ge s.ksNk _ (by omega)]; simp

/-! ### The bytes of the registers -/

theorem keyBytes_eight : keyBytes s 8 = wordBytes s.key.toList := by
  rw [keyBytes, List.take_of_length_le (by simp)]

/-- Settles O43: `keyBytes` and `digestBytes` are `wordBytes` of the whole register; `ivBytes` is defined
byte by byte. -/
theorem registerBytesAreBigEndian : Obligations.RegisterBytesAreBigEndian := by
  intro s
  have bytes (w : Vector Word 8) (k : Nat) (hk : k < 32) := wordBytes_getD w.toList k (by simpa using hk)
  rw [keyBytes_eight]
  refine ⟨bytes s.key, fun i => ?_, fun k hk => ?_, bytes s.h⟩
  · rw [be32At_wordBytes _ _ (by simp)]
    simp
  · have hword : k / 4 < 4 := by omega
    have hbyte : k % 4 < 4 := by omega
    simp [ivBytes, List.getD_eq_getElem?_getD, hk, hword, hbyte]

end Sys2Proof.Machine
end

section
/-! PROOFS. The obligations of `spec/20_memory.md`: what the host reads and writes at each offset (O36, O37),
misaligned accesses (O42), the order of the host's accesses (O45), and that `CBC_DECRYPT` expands the key
anew (O30). -/

namespace Sys2Proof.Machine

variable {s t : State}

/-! ### An older schedule -/

/-- A key expansion writes all of `KS`, `KS_NK` and `KS_VALID` and reads none of them. -/
theorem expandIntoKs_withSchedule (s : State) (ks : Vector Word 60) (nk : BitVec 4) (valid : Bool) :
    expandIntoKs { s with ks := ks, ksNk := nk, ksValid := valid } = expandIntoKs s := rfl

/-- If `CBC_DECRYPT` leaves no error latched then its checks of rule R190 have passed and its result is that
of the chaining loop. -/
theorem execCbcDecrypt_completes (h : execCbcDecrypt s = .next t) (hs : s.err = 0) (ht : t.err = 0) :
    s.len.toNat % 16 = 0 ∧ legalKeyLength s = true ∧ s.src.toNat + s.len.toNat ≤ s.bufBytes ∧
      t = cbcLoop (s.len.toNat / 16) s.src.toNat (ivBytes s) (expandIntoKs s) := by
  have raised (e : EngineError) (v : Word) : (latchError e v s).err ≠ 0 := errorCode_ne_zero e
  rcases execCbcDecrypt_cases h with ⟨he, -⟩ | ⟨-, -, rfl⟩ | ⟨-, -, -, rfl⟩ | ⟨-, -, -, -, rfl⟩ |
    ⟨-, hlen, hkey, hrange, ht⟩
  · exact absurd hs he
  · exact absurd ht (raised _ _)
  · exact absurd ht (raised _ _)
  · exact absurd ht (raised _ _)
  · exact ⟨hlen, hkey, hrange, ht⟩

/-- Settles O30: the checks read nothing of the schedule, and the loop starts from the expanded key. -/
theorem cbcDecryptIgnoresTheOldSchedule : Obligations.CbcDecryptIgnoresTheOldSchedule := by
  intro s t ks nk valid hs h ht
  obtain ⟨hlen, hkey, hrange, rfl⟩ := execCbcDecrypt_completes h hs ht
  rw [← expandIntoKs_withSchedule s ks nk valid]
  exact execCbcDecrypt_of_ready (s := { s with ks := ks, ksNk := nk, ksValid := valid })
    hs hlen hkey hrange

/-! ### The register map, target by target -/

/-- The offsets at which the map of rule R30 has a target, with `b` bytes of `BUF`. -/
def HostTarget.StandsAt (b : Nat) (o : Nat) : HostTarget → Prop
  | .cmd => o = 0x000
  | .status => o = 0x004
  | .err => o = 0x008
  | .errinfo => o = 0x00C
  | .keylen => o = 0x010
  | .src => o = 0x014
  | .len => o = 0x018
  | .key i => o = 0x020 + 4 * i.val
  | .iv i => o = 0x040 + 4 * i.val
  | .h i => o = 0x060 + 4 * i.val
  | .window a => a < b ∧ o = 0x1000 + a
  | .nothing => o = 0x01C ∨ (0x050 ≤ o ∧ o < 0x060) ∨ (0x080 ≤ o ∧ o < 0x1000) ∨ 0x1000 + b ≤ o

theorem hostMap_of_standsAt {b : Nat} {off : Offset} {x : HostTarget}
    (h : x.StandsAt b off.val.toNat) : hostMap b off = x := by
  cases x with
  | nothing => exact hostMap_nothing h
  | cmd | status | err | errinfo | keylen | src | len =>
    simp only [HostTarget.StandsAt] at h
    simp [hostMap, h]
  | key i | iv i | h i =>
    simp only [HostTarget.StandsAt] at h
    simp (disch := omega) only [hostMap, if_pos, if_neg]
    simp [h]
  | window a =>
    obtain ⟨ha, h⟩ := h
    simp (disch := omega) only [hostMap, if_pos, if_neg]
    simp [h]

theorem hostRead32_of_standsAt {off : Offset} {x : HostTarget}
    (h : x.StandsAt s.bufBytes off.val.toNat) : hostRead32 off s = readAt x s := by
  rw [hostRead32_eq_readAt, hostMap_of_standsAt h]

theorem hostWrite32_of_standsAt {off : Offset} {x : HostTarget} (v : Word)
    (h : x.StandsAt s.bufBytes off.val.toNat) (h0 : off.val.toNat ≠ 0) :
    hostWrite32 off v s = .next (storeAt x v s) := by
  rw [hostWrite32_eq_storeAt s v h0, hostMap_of_standsAt h]

/-- Settles O36: each clause is what the host reads at one target. -/
theorem hostReadReturnsTheMappedWord : Obligations.HostReadReturnsTheMappedWord := by
  intro s off
  have read (x : HostTarget) : x.StandsAt s.bufBytes off.val.toNat → hostRead32 off s = readAt x s :=
    hostRead32_of_standsAt
  refine ⟨read .status, read .err, read .errinfo, read .keylen, read .src, read .len,
    fun i => read (.key i), fun i => read (.iv i), fun i => read (.h i),
    fun a ha h => read (.window a) ⟨ha, h⟩, ?_⟩
  rintro (h | h)
  · exact read .cmd h
  · exact read .nothing h

/-- Settles O37: `CMD` takes the word, each writable clause is the store at one target, and no other offset
stores. -/
theorem hostWriteStoresAtTheMappedPlace : Obligations.HostWriteStoresAtTheMappedPlace := by
  intro s off v
  have write (x : HostTarget) (h : x.StandsAt s.bufBytes off.val.toNat) (h0 : off.val.toNat ≠ 0) :
      hostWrite32 off v s = .next (storeAt x v s) := hostWrite32_of_standsAt v h h0
  refine ⟨fun h => ?cmd, fun h => write .keylen h (by omega), fun h => write .src h (by omega),
    fun h => write .len h (by omega), fun i h => write (.key i) h (by omega),
    fun i h => write (.iv i) h (by omega), fun a ha h => ?window, fun h => ?ignored⟩
  case cmd =>
    have hm : hostMap s.bufBytes off = .cmd := hostMap_of_standsAt h
    rw [hostWrite32, hm]
  case window =>
    exact ⟨memWrite s a (bytesBe32 v), write (.window a) ⟨ha, h⟩ (by omega), rfl,
      fun j => readByte_memWrite_inside s a _ j j.isLt, readByte_memWrite_outside s a _⟩
  case ignored =>
    refine hostWrite32_ignored s v (by omega) ?_
    rw [hostMap_stores_iff]
    omega

/-! ### Misaligned accesses -/

theorem wfOffset_iff (off : Word) : wfOffset off = true ↔ off.toNat % 4 = 0 := by simp [wfOffset]

theorem hostAccess_misaligned {e : HostEvent} {off v : Word} (h : off.toNat % 4 ≠ 0)
    (he : e = .read off ∨ e = .write off v) (s : State) :
    hostAccess e s = .refused (.misalignedHostAccess off) := by
  have hwf : ¬ wfOffset off = true := mt (wfOffset_iff off).1 h
  rcases he with rfl | rfl
  · exact dif_neg hwf
  · exact dif_neg hwf

/-- Settles O42: the step is the pending access, which the boundary refuses. -/
theorem misalignedHostAccessIsRefused : Obligations.MisalignedHostAccessIsRefused := by
  intro s off v rest hoff
  have refused {e : HostEvent} (he : e = .read off ∨ e = .write off v) (hp : s.pending = e :: rest) :
      step s = .refused (.misalignedHostAccess off) := by
    rw [step_of_pending hp, hostAccess_misaligned hoff he]
  exact ⟨refused (.inl rfl), refused (.inr rfl)⟩

/-! ### What the host will do later

An operation neither reads nor writes the list of coming accesses, so replacing that list before it is the
same as replacing it afterwards. -/

/-- A result with the host's coming accesses replaced. -/
def withPending (p : List HostEvent) : Result → Result
  | .next t => .next (t.setPending p)
  | .fault r => .fault r
  | .refused r => .refused r

variable (s) (p : List HostEvent)

theorem ite_withPending {c : Prop} [Decidable c] {a b a' b' : Result} (ha : a' = withPending p a)
    (hb : b' = withPending p b) :
    (if c then a' else b') = withPending p (if c then a else b) := by
  rw [ha, hb, apply_ite (withPending p)]

/-- The gate reads `ERR` alone. -/
theorem unlessLatched_setPending {b b' : Result} (h : b' = withPending p b) :
    unlessLatched (s.setPending p) b' = withPending p (unlessLatched s b) :=
  ite_withPending p h rfl

theorem raise_setPending (e : EngineError) (info : Word) :
    raise e info (s.setPending p) = withPending p (raise e info s) := rfl

theorem memRead_setPending (a n : Nat) : memRead (s.setPending p) a n = memRead s a n := rfl

theorem memWrite_setPending {n : Nat} (a : Nat) (b : Vector Byte n) :
    memWrite (s.setPending p) a b = (memWrite s a b).setPending p := rfl

theorem expandIntoKs_setPending :
    expandIntoKs (s.setPending p) = (expandIntoKs s).setPending p := rfl

theorem cbcLoop_setPending (m a : Nat) (prev : Block) :
    cbcLoop m a prev (s.setPending p) = (cbcLoop m a prev s).setPending p := by
  induction m generalizing a prev s with
  | zero => rfl
  | succ m ih =>
    rw [cbcLoop, cbcLoop, memRead_setPending, memWrite_setPending, ih]
    rfl

theorem execShaBlock_setPending :
    execShaBlock (s.setPending p) = withPending p (execShaBlock s) :=
  unlessLatched_setPending s p (ite_withPending p (raise_setPending s p _ _)
    (ite_withPending p (raise_setPending s p _ _) (by rw [memRead_setPending]; rfl)))

theorem execAesKeyexp_setPending :
    execAesKeyexp (s.setPending p) = withPending p (execAesKeyexp s) :=
  unlessLatched_setPending s p (ite_withPending p (raise_setPending s p _ _)
    (by rw [expandIntoKs_setPending]; rfl))

theorem execAesDecblk_setPending :
    execAesDecblk (s.setPending p) = withPending p (execAesDecblk s) :=
  unlessLatched_setPending s p (ite_withPending p (raise_setPending s p _ _)
    (ite_withPending p (raise_setPending s p _ _)
      (by rw [memRead_setPending, memWrite_setPending]; rfl)))

theorem execCbcDecrypt_setPending :
    execCbcDecrypt (s.setPending p) = withPending p (execCbcDecrypt s) :=
  unlessLatched_setPending s p (ite_withPending p (raise_setPending s p _ _)
    (ite_withPending p (raise_setPending s p _ _) (ite_withPending p (raise_setPending s p _ _)
      (by rw [expandIntoKs_setPending, cbcLoop_setPending]; rfl))))

theorem exec_setPending (i : Instr) : exec i (s.setPending p) = withPending p (exec i s) := by
  cases i with
  | nop => rfl
  | clear => rfl
  | shaInit => exact unlessLatched_setPending s p rfl
  | shaBlock => exact execShaBlock_setPending s p
  | aesKeyexp => exact execAesKeyexp_setPending s p
  | aesDecblk => exact execAesDecblk_setPending s p
  | cbcDecrypt => exact execCbcDecrypt_setPending s p

theorem takeCommand_setPending (v : Word) :
    takeCommand v (s.setPending p) = withPending p (takeCommand v s) := by
  unfold takeCommand
  split
  · exact exec_setPending s p _
  · exact unlessLatched_setPending s p (raise_setPending s p _ _)

theorem readAt_setPending (x : HostTarget) : readAt x (s.setPending p) = readAt x s := by
  cases x <;> rfl

theorem storeAt_setPending (x : HostTarget) (v : Word) :
    storeAt x v (s.setPending p) = (storeAt x v s).setPending p := by
  cases x <;> rfl

theorem hostRead32_setPending (off : Offset) :
    hostRead32 off (s.setPending p) = hostRead32 off s := by
  rw [hostRead32_eq_readAt, hostRead32_eq_readAt, readAt_setPending, State.setPending_bufBytes]

theorem hostWrite32_setPending (off : Offset) (v : Word) :
    hostWrite32 off v (s.setPending p) = withPending p (hostWrite32 off v s) := by
  by_cases h0 : off.val.toNat = 0
  · have hm (b : Nat) : hostMap b off = .cmd := hostMap_of_standsAt h0
    rw [hostWrite32, hostWrite32, hm, hm]
    exact takeCommand_setPending s p v
  · rw [hostWrite32_eq_storeAt _ v h0, hostWrite32_eq_storeAt _ v h0, storeAt_setPending]
    rfl

theorem hostAccess_setPending (e : HostEvent) :
    hostAccess e (s.setPending p) = withPending p (hostAccess e s) := by
  cases e with
  | read off =>
    simp only [hostAccess, hostRead32_setPending]
    split <;> rfl
  | write off v =>
    simp only [hostAccess, hostWrite32_setPending]
    split <;> rfl
  | hardReset => rfl

variable {s} {p}

/-- A run of `n + 1` steps that goes through is a first step that answers a next state, and a run of `n`
steps from there. -/
theorem core_run_succ_cases {n : Nat} (h : Host.Core.run Sys2Proof.core (n + 1) s = .next t) :
    ∃ u, step s = .next u ∧ Host.Core.run Sys2Proof.core n u = .next t := by
  cases hstep : step s with
  | next u => exact ⟨u, rfl, core_run_succ hstep ▸ h⟩
  | fault r => nomatch r
  | refused r =>
    have hcore : Sys2Proof.core.step s = .refused r := hstep
    simp [Host.Core.run, hcore] at h

/-- A step that performs the event `e` performs it whatever the host will do after it. -/
theorem step_of_event {e : HostEvent} {now : List HostEvent}
    (h : step (s.setPending (e :: now)) = .next t) :
    ∃ u : State, t = u.setPending now ∧
      ∀ rest, step (s.setPending (e :: rest)) = .next (u.setPending rest) := by
  have hstep (rest : List HostEvent) :
      step (s.setPending (e :: rest)) = withPending rest (hostAccess e s) := by
    rw [step_of_pending (s.setPending_pending (e :: rest)), State.setPending_setPending,
      hostAccess_setPending]
  rw [hstep] at h
  cases hacc : hostAccess e s with
  | next u =>
    rw [hacc] at h hstep
    cases h
    exact ⟨u, rfl, hstep⟩
  | fault r => nomatch r
  | refused r => rw [hacc] at h; cases h

/-- Events behind those of a run that goes through are still to do when it ends. -/
theorem core_run_append {now : List HostEvent} (later : List HostEvent)
    (h : Host.Core.run Sys2Proof.core now.length (s.setPending now) = .next t) :
    Host.Core.run Sys2Proof.core now.length (s.setPending (now ++ later)) =
      .next (t.setPending later) := by
  induction now generalizing s with
  | nil => cases h; rfl
  | cons e now ih =>
    obtain ⟨t₁, hstep, hrun⟩ := core_run_succ_cases h
    obtain ⟨u, rfl, hany⟩ := step_of_event hstep
    calc Host.Core.run Sys2Proof.core (now.length + 1) (s.setPending (e :: (now ++ later)))
      _ = Host.Core.run Sys2Proof.core now.length (u.setPending (now ++ later)) :=
        core_run_succ (hany _)
      _ = .next (t.setPending later) := ih hrun

/-- Settles O45, by induction on the events to run. -/
theorem laterAccessesHaveNoInfluence : Obligations.LaterAccessesHaveNoInfluence :=
  fun _ _ _ later h => core_run_append later h

end Sys2Proof.Machine
end

section
/-! PROOFS. The obligations of `spec/30_encoding.md`: the command words and their decoder (O1, O2, O3), what
a step and a write to `CMD` do with a word (O4, O5, O6), what each command leaves unchanged (O32), that the
engine never stops (O44), and the pseudo-operations of rule R98 (O53, O54). -/

namespace Sys2Proof.Machine

variable {s t : State}

/-! ### The command words -/

theorem formatC_statement (i : Instr) : Laws.FormatC.Statement i := by
  cases i with
  | nop => exact Laws.FormatC.nop
  | clear => exact Laws.FormatC.clear
  | shaInit => exact Laws.FormatC.shaInit
  | shaBlock => exact Laws.FormatC.shaBlock
  | aesKeyexp => exact Laws.FormatC.aesKeyexp
  | aesDecblk => exact Laws.FormatC.aesDecblk
  | cbcDecrypt => exact Laws.FormatC.cbcDecrypt

@[simp] theorem decode_encode (i : Instr) : decode (encode i) = .command i := by
  obtain ⟨-, -, hdecode, -⟩ := formatC_statement i
  exact hdecode

theorem decode_eq_command_iff {v : Word} {i : Instr} : decode v = .command i ↔ v = encode i :=
  ⟨eq_encode_of_decode, fun h => h ▸ decode_encode i⟩

theorem decode_of_ne_encode {v : Word} (h : ∀ i, v ≠ encode i) : decode v = .illegalCommand v := by
  cases hd : decode v with
  | command i => exact absurd (eq_encode_of_decode hd) (h i)
  | illegalCommand w => rw [decode_illegal_eq hd]

/-- Format C of rule R92. -/
theorem encode_high_bits (i : Instr) : (encode i).extractLsb' 8 24 = 0 := by
  obtain ⟨hformat, -⟩ := formatC_statement i
  simpa [wfFormatC] using hformat

/-- Settles O1: the decoder and the encoder are inverse, and every command word is in format C. -/
theorem decodeIsEqualityWithCommandWord : Obligations.DecodeIsEqualityWithCommandWord :=
  ⟨fun _ _ => decode_eq_command_iff, rfl, rfl, rfl, rfl, rfl, rfl, rfl, encode_high_bits⟩

/-- The words and opcode ranges that rule R95 lists as illegal. -/
def ReservedWord (v : Word) : Prop :=
  0x100 ≤ v.toNat ∨ (0x02 ≤ v.toNat ∧ v.toNat ≤ 0x0F) ∨ (0x12 ≤ v.toNat ∧ v.toNat ≤ 0x1F) ∨
    (0x22 ≤ v.toNat ∧ v.toNat ≤ 0x2F) ∨ (0x31 ≤ v.toNat ∧ v.toNat ≤ 0xFF)

theorem encode_not_reserved (i : Instr) : ¬ ReservedWord (encode i) := by
  unfold ReservedWord
  cases i <;> decide

theorem ReservedWord.ne_encode {v : Word} (h : ReservedWord v) (i : Instr) : v ≠ encode i :=
  fun hv => encode_not_reserved i (hv ▸ h)

/-- A word with a nonzero bit in 31:8 is one of the words from `0x100` up. -/
theorem le_toNat_of_high_bits {v : Word} (h : v.extractLsb' 8 24 ≠ 0) : 0x100 ≤ v.toNat := by
  by_contra hlt
  refine h (BitVec.eq_of_toNat_eq ?_)
  rw [BitVec.extractLsb'_toNat, Nat.shiftRight_eq_div_pow, Nat.div_eq_of_lt (by omega)]
  rfl

/-- Settles O2: no command word is among the reserved words. -/
theorem everyOtherWordIsIllegal : Obligations.EveryOtherWordIsIllegal :=
  ⟨fun _ => decode_of_ne_encode, fun _ h => decode_of_ne_encode (ReservedWord.ne_encode h)⟩

theorem decodeTableWord_toNat (v : Word) : decodeTableWord 32 v.toNat = (decode v).toOption := by
  have hword : tableWord 32 v.toNat = v.toNat := Nat.mod_eq_of_lt v.isLt
  rw [decodeTableWord, hword, if_pos v.isLt, BitVec.ofNat_toNat, BitVec.setWidth_eq]

theorem decodeTableWord_encode (i : Instr) : decodeTableWord 32 (encode i).toNat = some i := by
  rw [decodeTableWord_toNat, decode_encode, Decoded.toOption]

/-- Settles O3: the words written out are those of the encoder. -/
theorem tableWordsDecode : Obligations.TableWordsDecode :=
  ⟨decodeTableWord_encode .nop, decodeTableWord_encode .clear, decodeTableWord_encode .shaInit,
    decodeTableWord_encode .shaBlock, decodeTableWord_encode .aesKeyexp,
    decodeTableWord_encode .aesDecblk, decodeTableWord_encode .cbcDecrypt⟩

/-! ### Taking a command word -/

theorem takeCommand_of_decode {v : Word} {i : Instr} (h : decode v = .command i) (s : State) :
    takeCommand v s = exec i s := by
  rw [takeCommand, h]

theorem takeCommand_encode (i : Instr) (s : State) : takeCommand (encode i) s = exec i s :=
  takeCommand_of_decode (decode_encode i) s

theorem takeCommand_illegal {v : Word} (h : ∀ i, v ≠ encode i) (hs : s.err = 0) :
    takeCommand v s = .next (latchError .illegalCommand v s) := by
  rw [takeCommand, decode_of_ne_encode h]
  exact unlessLatched_of_clean hs

/-- While an error is latched every word but that of `CLEAR` is dropped (rule R93). -/
theorem takeCommand_dropped {v : Word} (hs : s.err ≠ 0) (hv : v ≠ encode .clear) :
    takeCommand v s = .next s := by
  obtain ⟨t, ht⟩ := takeCommand_answers v s
  rw [ht]
  rcases takeCommand_cases ht with ⟨i, hd, hx⟩ | ⟨w, -, ⟨-, rfl⟩ | ⟨he, -⟩⟩
  · rcases (exec_effect hx).of_latched hs with rfl | ⟨rfl, -⟩
    · rfl
    · exact absurd (eq_encode_of_decode hd) hv
  · rfl
  · exact absurd he hs

theorem hostWrite32_cmd (v : Word) (s : State) : hostWrite32 ⟨0x000, rfl⟩ v s = takeCommand v s := rfl

/-- Settles O5: the word is rejected by the decoder, and a reserved word is one that is. -/
theorem illegalWordLatchesIllegalCommand : Obligations.IllegalWordLatchesIllegalCommand := by
  refine ⟨fun s v hv hs => ?_, fun v i h => ReservedWord.ne_encode ?_ i⟩
  · rw [hostWrite32_cmd, takeCommand_illegal hv hs]
    rfl
  · exact h.imp_left le_toNat_of_high_bits

/-- Settles O6: the three ways a word is taken, by the latch and by whether the word is a command word. -/
theorem commandWordIsTakenAsTheLatchAllows : Obligations.CommandWordIsTakenAsTheLatchAllows := by
  intro s v
  rw [hostWrite32_cmd]
  refine ⟨fun hs => ?_, fun _ i hv => ?_, fun hs hv => takeCommand_illegal hv hs⟩
  · split
    · next hv => rw [hv]; exact takeCommand_encode .clear s
    · next hv => exact takeCommand_dropped hs hv
  · rw [hv, takeCommand_encode]

/-! ### The step -/

theorem hostAccess_write (off : Offset) (v : Word) (s : State) :
    hostAccess (.write off.val v) s = hostWrite32 off v s := dif_pos off.property

theorem hostAccess_read (off : Offset) (s : State) :
    hostAccess (.read off.val) s = .next (s.giveHost (hostRead32 off s)) := dif_pos off.property

theorem decode_of_decodeTableWord {w : Nat} {i : Instr} (h : decodeTableWord 32 w = some i) :
    decode (BitVec.ofNat 32 (tableWord 32 w)) = .command i := by
  unfold decodeTableWord at h
  split at h
  · cases hd : decode (BitVec.ofNat 32 (tableWord 32 w)) with
    | command j => rw [hd] at h; cases h; rfl
    | illegalCommand v => rw [hd] at h; cases h
  · cases h

/-- The word that `withFetchWord` places is taken in the state it was placed in. -/
theorem step_withFetchWord (s : State) (nbits w : Nat) :
    step (s.withFetchWord nbits w) = takeCommand (BitVec.ofNat 32 (tableWord nbits w)) s :=
  step_of_command (rest := s.pending) rfl

/-- Settles O4: each clause is the step with the pending event it names. -/
theorem stepRunsDecodedCommand : Obligations.StepRunsDecodedCommand := by
  refine ⟨fun s v i rest hp hd _ => ?_, fun s w i h => ?_, fun s off v rest hp => ?_,
    fun s off rest hp => ?_, fun s rest hp => step_of_pending hp, fun s hp => step_of_idle hp⟩
  · rw [step_of_command hp, takeCommand_of_decode hd]
  · rw [step_withFetchWord, takeCommand_of_decode (decode_of_decodeTableWord h)]
  · rw [step_of_pending hp, hostAccess_write]
  · rw [step_of_pending hp, hostAccess_read, hostRead32_setPending]
    rfl

/-! ### What each command leaves unchanged

The effects of `exec_effect` say which registers a command can write; the addresses of the bytes written are
those of `execAesDecblk_cases` and `execCbcDecrypt_cases`. -/

theorem CommandEffect.shaBlock_frame (h : CommandEffect s .shaBlock t) :
    t = { s with h := t.h, err := t.err, errinfo := t.errinfo } := by
  cases h with
  | unchanged | raised | compressed => rfl

theorem CommandEffect.aesKeyexp_frame (h : CommandEffect s .aesKeyexp t) :
    t = { s with ks := t.ks, ksNk := t.ksNk, ksValid := t.ksValid, err := t.err,
                 errinfo := t.errinfo } := by
  cases h with
  | unchanged | raised => rfl
  | expanded => apply State.eq_of_fields <;> simp

theorem CommandEffect.aesDecblk_frame (h : CommandEffect s .aesDecblk t) :
    t = { s with buf := t.buf, err := t.err, errinfo := t.errinfo } := by
  cases h with
  | unchanged | raised | decrypted => rfl

theorem CommandEffect.cbcDecrypt_frame (h : CommandEffect s .cbcDecrypt t) :
    t = { s with ks := t.ks, ksNk := t.ksNk, ksValid := t.ksValid, buf := t.buf, err := t.err,
                 errinfo := t.errinfo } := by
  cases h with
  | unchanged | raised => rfl
  | chained => apply State.eq_of_fields <;> simp

/-- `SHA_INIT` raises no error of its own (rule R110). -/
theorem execShaInit_frame (h : execShaInit s = .next t) :
    t = { s with h := t.h, hValid := t.hValid } := by
  rcases execShaInit_cases h with ⟨-, rfl⟩ | ⟨-, rfl⟩ <;> rfl

theorem readByte_latchError (e : EngineError) (info : Word) (s : State) (a : Nat) :
    readByte (latchError e info s) a = readByte s a := rfl

theorem execAesDecblk_outside (h : execAesDecblk s = .next t) {a : Nat}
    (ha : a < s.src.toNat ∨ s.src.toNat + 16 ≤ a) : readByte t a = readByte s a := by
  rcases execAesDecblk_cases h with ⟨-, rfl⟩ | ⟨-, -, rfl⟩ | ⟨-, -, -, rfl⟩ | ⟨-, -, -, rfl⟩
  · rfl
  · exact readByte_latchError ..
  · exact readByte_latchError ..
  · exact readByte_memWrite_outside _ _ _ _ ha

theorem execCbcDecrypt_outside (h : execCbcDecrypt s = .next t) {a : Nat}
    (ha : a < s.src.toNat ∨ s.src.toNat + s.len.toNat ≤ a) : readByte t a = readByte s a := by
  rcases execCbcDecrypt_cases h with ⟨-, rfl⟩ | ⟨-, -, rfl⟩ | ⟨-, -, -, rfl⟩ | ⟨-, -, -, -, rfl⟩ |
    ⟨-, hlen, -, -, rfl⟩
  · rfl
  · exact readByte_latchError ..
  · exact readByte_latchError ..
  · exact readByte_latchError ..
  · rw [cbcLoop_outside _ _ _ _ _ (by omega)]
    exact readByte_congr expandIntoKs_buf expandIntoKs_resets a

/-- Settles O32: one frame per command. -/
theorem commandsWriteOnlyTheirState : Obligations.CommandsWriteOnlyTheirState := by
  refine fun s t => ⟨execNop_cases, fun h => ?_, execShaInit_frame, fun h => ?_, fun h => ?_,
    fun h => ⟨?_, fun _ => execAesDecblk_outside h⟩, fun h => ⟨?_, fun _ => execCbcDecrypt_outside h⟩⟩
  · rw [execClear_cases h]
    simp
  · exact (exec_effect h).shaBlock_frame
  · exact (exec_effect h).aesKeyexp_frame
  · exact (exec_effect h).aesDecblk_frame
  · exact (exec_effect h).cbcDecrypt_frame

/-! ### Runs -/

theorem step_pending (h : step s = .next t) : t.pending = s.pending.tail := by
  rcases step_cases h with ⟨hp, rfl⟩ | ⟨e, rest, hp, hacc⟩
  · rw [hp, List.tail_nil]
  · rw [hostAccess_pending hacc, hp, List.tail_cons, State.setPending_pending]

/-- A step leaves the host with aligned accesses to make. -/
theorem step_hostOk (hs : s.HostOk) (h : step s = .next t) : t.HostOk := by
  intro e he
  rw [step_pending h] at he
  exact hs e (List.mem_of_mem_tail he)

theorem step_answers (hs : s.HostOk) : ∃ t, step s = .next t := by
  cases hp : s.pending with
  | nil => exact ⟨s, step_of_idle hp⟩
  | cons e rest =>
    rw [step_of_pending hp]
    exact hostAccess_answers _ (hs e (hp ▸ List.mem_cons_self ..))

/-- Settles O44, by induction on the number of steps. -/
theorem engineNeverStops : Obligations.EngineNeverStops := by
  intro n
  induction n with
  | zero => exact fun s _ => ⟨s, core_run_zero s⟩
  | succ n ih =>
    intro s hs
    obtain ⟨t, hstep⟩ := step_answers hs
    obtain ⟨u, hrun⟩ := ih t (step_hostOk hs hstep)
    exact ⟨u, (core_run_succ hstep).trans hrun⟩

/-! ### `LDBYTES` and `RDBYTES` -/

/-- `BUF[c]` after `LDBYTES` of the bytes `b` at `a` (rule R98). -/
def loadedByte (a : Nat) (b : List Byte) (s : State) (c : Nat) : Byte :=
  if a ≤ c ∧ c < a + b.length then b.getD (c - a) 0 else readByte s c

theorem loadedByte_inside {a i : Nat} {b : List Byte} (hi : i < b.length) :
    loadedByte a b s (a + i) = b.getD i 0 := by
  rw [loadedByte, if_pos ⟨by omega, by omega⟩, Nat.add_sub_cancel_left]

theorem loadedByte_outside {a c : Nat} {b : List Byte} (hc : c < a ∨ a + b.length ≤ c) :
    loadedByte a b s c = readByte s c := if_neg (by omega)

theorem windowWord_byte {j : Nat} (hj : j < 4) (a : Nat) :
    (bytesBe32 (windowWord s a)).toList.getD j 0 = readByte s (a + j) := by
  rw [windowWord, bytesBe32_be32]
  match j, hj with
  | 0, _ | 1, _ | 2, _ | 3, _ => rfl

/-- Byte `j` of word `k` of `BUF`, as `RDBUF` gives it. -/
theorem readBuf_byte {k j : Nat} (hj : j < 4) (hk : 4 * k < s.bufBytes) (hb : s.bufBytes ≤ 2 ^ 31) :
    (bytesBe32 (readBuf k s)).toList.getD j 0 = readByte s (4 * k + j) := by
  rw [readBuf_inside hk hb, windowWord_byte hj]

theorem mergedByte_eq {a k j : Nat} {b : List Byte} (hj : j < 4) (hk : 4 * k < s.bufBytes)
    (hb : s.bufBytes ≤ 2 ^ 31) : mergedByte a b k s j = loadedByte a b s (4 * k + j) := by
  rw [mergedByte, readBuf_byte hj hk hb, loadedByte]

/-- The word `LDBYTES` writes at `4 k` makes its four bytes the loaded ones and leaves the others. -/
theorem readByte_mergedWord {a k : Nat} {b : List Byte} (hk : 4 * k < s.bufBytes)
    (hb : s.bufBytes ≤ 2 ^ 31) (c : Nat) :
    readByte (memWrite s (4 * k) (bytesBe32 (mergedWord a b k s))) c =
      if 4 * k ≤ c ∧ c < 4 * k + 4 then loadedByte a b s c else readByte s c := by
  split
  · next hc =>
    obtain ⟨j, rfl⟩ := Nat.exists_eq_add_of_le hc.1
    have hj : j < 4 := by omega
    rw [readByte_memWrite_inside _ _ _ _ hj, ← mergedByte_eq hj hk hb]
    simp only [mergedWord, bytesBe32_be32]
    match j, hj with
    | 0, _ | 1, _ | 2, _ | 3, _ => rfl
  · exact readByte_memWrite_outside _ _ _ _ (by omega)

/-- `n` word writes of `LDBYTES` from word `k` on load the bytes of those words. -/
theorem loadWords_spec (a : Nat) (b : List Byte) {n k : Nat} (hk : 4 * (k + n) ≤ s.bufBytes)
    (hb : s.bufBytes ≤ 2 ^ 31) :
    ∃ t, loadWords a b n k s = .next t ∧ t = { s with buf := t.buf } ∧
      ∀ c, readByte t c =
        if 4 * k ≤ c ∧ c < 4 * (k + n) then loadedByte a b s c else readByte s c := by
  induction n generalizing k s with
  | zero => exact ⟨s, rfl, rfl, fun c => (if_neg (by omega)).symm⟩
  | succ n ih =>
    have hk0 : 4 * k < s.bufBytes := by omega
    have hbyte := readByte_mergedWord (a := a) (b := b) hk0 hb
    have haccess := hostAccess_wrbuf_inside (mergedWord a b k s) hk0 hb
    have hbuf : memWrite s (4 * k) (bytesBe32 (mergedWord a b k s)) =
        { s with buf := (memWrite s (4 * k) (bytesBe32 (mergedWord a b k s))).buf } := rfl
    generalize memWrite s (4 * k) (bytesBe32 (mergedWord a b k s)) = u at hbyte haccess hbuf
    have hsize : u.bufBytes = s.bufBytes := by rw [hbuf]
    obtain ⟨t, hload, ht, hrest⟩ := ih (s := u) (k := k + 1) (by omega) (by omega)
    refine ⟨t, ?_, ?_, fun c => ?_⟩
    · rw [loadWords, haccess]
      exact hload
    · rw [ht, hbuf]
    · by_cases hword : 4 * k ≤ c ∧ c < 4 * k + 4
      · rw [hrest, if_neg (by omega), hbyte, if_pos hword, if_pos (by omega)]
      · have hkept : readByte u c = readByte s c := by rw [hbyte, if_neg hword]
        have hbehind : (4 * (k + 1) ≤ c ∧ c < 4 * (k + 1 + n)) ↔
            (4 * k ≤ c ∧ c < 4 * (k + (n + 1))) := by omega
        simp only [hrest, loadedByte, hkept, hbehind]

/-- `LDBYTES` inside a legal buffer makes every byte the loaded one. -/
theorem loadBytes_spec {a : Nat} {b : List Byte} (hlegal : Config.legalBufBytes s.bufBytes = true)
    (ha : a + b.length ≤ s.bufBytes) :
    ∃ t, loadBytes a b s = .next t ∧ t = { s with buf := t.buf } ∧
      ∀ c, readByte t c = loadedByte a b s c := by
  obtain ⟨hmod, -, hb⟩ := (legalBufBytes_iff _).1 hlegal
  rw [loadBytes]
  generalize hn : (if b.length = 0 then 0 else (a % 4 + b.length + 3) / 4) = n
  have hcover : b.length = 0 ∧ n = 0 ∨ a + b.length ≤ 4 * (a / 4 + n) ∧ 4 * (a / 4 + n) ≤ s.bufBytes := by
    split at hn <;> omega
  obtain ⟨t, hload, ht, hbyte⟩ := loadWords_spec a b (s := s) (n := n) (k := a / 4) (by omega) hb
  refine ⟨t, hload, ht, fun c => ?_⟩
  rw [hbyte]
  split
  · rfl
  · exact (loadedByte_outside (by omega)).symm

/-- `RDBYTES` inside a legal buffer gives the bytes of `BUF`. -/
theorem readBytes_eq {a n : Nat} (hlegal : Config.legalBufBytes s.bufBytes = true)
    (ha : a + n ≤ s.bufBytes) :
    readBytes a n s = (List.range n).map fun i => readByte s (a + i) := by
  obtain ⟨-, -, hb⟩ := (legalBufBytes_iff _).1 hlegal
  refine List.map_congr_left fun i hi => ?_
  have hi := List.mem_range.1 hi
  rw [readBuf_byte (by omega) (by omega) hb, Nat.div_add_mod]

/-- Settles O53: `LDBYTES` makes each byte the loaded one, and `RDBYTES` reads those at `a` on. -/
theorem loadAndReadBytes : Obligations.LoadAndReadBytes := by
  intro s a b hlegal ha
  obtain ⟨t, hload, ht, hbyte⟩ := loadBytes_spec hlegal ha
  have hinside (i : Nat) (hi : i < b.length) : readByte t (a + i) = b.getD i 0 := by
    rw [hbyte, loadedByte_inside hi]
  refine ⟨t, hload, ht, hinside, fun c hc => by rw [hbyte, loadedByte_outside hc], ?_⟩
  have hsize : t.bufBytes = s.bufBytes := by rw [ht]
  rw [readBytes_eq (hsize ▸ hlegal) (hsize ▸ ha)]
  refine List.ext_getElem (by simp) fun i _ hi => ?_
  simp [hinside i hi, hi]

/-! ### `KEYFROMH` -/

theorem readReg_h (i : Fin 8) (s : State) : readReg (.h i) s = s.h[i] :=
  hostRead32_of_standsAt (x := .h i) (by
    simp only [regOffset, HostTarget.StandsAt, BitVec.toNat_ofNat]
    omega)

theorem hostAccess_wr_key (i : Fin 8) (v : Word) (s : State) :
    hostAccess (HostLine.wr (.key i) v).event s = .next (s.setKeyWord i v) := by
  have hoff : (regOffset (.key i)).val.toNat = 0x020 + 4 * i.val := by
    simp only [regOffset, BitVec.toNat_ofNat]
    omega
  rw [HostLine.event, hostAccess_write]
  exact hostWrite32_of_standsAt (x := .key i) v hoff (by omega)

theorem hostAccess_wr_keylen (v : Word) (s : State) :
    hostAccess (HostLine.wr .keylen v).event s = .next (s.setKeylen v) := rfl

/-- `KEY` after the last `n` words of `H` have been copied to it. -/
def copiedKey (n : Nat) (s : State) : Vector Word 8 :=
  Vector.ofFn fun j => if 8 - n ≤ j.val then s.h[j] else s.key[j]

theorem copiedKey_getElem (n : Nat) (s : State) {j : Nat} (hj : j < 8) :
    (copiedKey n s)[j] = if 8 - n ≤ j then s.h[j] else s.key[j] := by
  simp [copiedKey]

theorem copiedKey_zero (s : State) : copiedKey 0 s = s.key := by
  ext j hj : 1
  rw [copiedKey_getElem 0 s hj, if_neg (by omega)]

theorem copiedKey_eight (s : State) : copiedKey 8 s = s.h := by
  ext j hj : 1
  rw [copiedKey_getElem 8 s hj, if_pos (by omega)]

/-- Copying word `7 - n` and then the `n` words behind it copies the last `n + 1` words. -/
theorem copiedKey_setKeyWord {n : Nat} (hn : n < 8) {i : Fin 8} (hi : i.val = 7 - n) (s : State) :
    copiedKey n (s.setKeyWord i s.h[i]) = copiedKey (n + 1) s := by
  ext j hj : 1
  rw [copiedKey_getElem n _ hj, copiedKey_getElem (n + 1) s hj, State.setKeyWord_h,
    State.setKeyWord_key]
  rcases lt_trichotomy j i.val with hbefore | rfl | hbehind
  · rw [if_neg (by omega), if_neg (by omega)]
    exact Vector.getElem_set_ne _ _ (by omega)
  · rw [if_neg (by omega), if_pos (by omega)]
    exact Vector.getElem_set_self _
  · rw [if_pos (by omega), if_pos (by omega)]

theorem copyHashWords_eq {n : Nat} (hn : n ≤ 8) (s : State) :
    copyHashWords n s = .next { s with key := copiedKey n s } := by
  induction n generalizing s with
  | zero => rw [copiedKey_zero]; rfl
  | succ n ih =>
    simp only [copyHashWords, readReg_h, hostAccess_wr_key]
    rw [ih (by omega), copiedKey_setKeyWord hn (Nat.mod_eq_of_lt (by omega))]
    rfl

/-- Settles O54: the eight words copied are all of `KEY`. -/
theorem keyFromHashCopiesWords : Obligations.KeyFromHashCopiesWords := by
  intro s
  rw [keyFromH, copyHashWords_eq (le_refl 8), copiedKey_eight]
  rfl

end Sys2Proof.Machine
end

section
/-! PROOFS. The obligations of `spec/40_sha256.md`: `SHA_INIT` loads `HINIT` (O14), and `SHA_BLOCK` runs the
sixty-four rounds on the block at `SRC` (O15), which is `H <- Compress(H, block)` (O16). -/

namespace Sys2Proof.Machine

variable {s : State}

/-! ### SHA_INIT -/

/-- Rule R110, with no error latched. -/
theorem exec_shaInit_of_clean (he : s.err = 0) :
    exec .shaInit s = .next (s.setHash hInit).markHashValid :=
  unlessLatched_of_clean he

/-- Settles O14: the state answered has the words loaded, so loading them again leaves it as it is; the host
reads `H0` and bit 2 of `STATUS` off its fields. -/
theorem shaInitLoadsInitialWords : Obligations.ShaInitLoadsInitialWords := by
  refine ⟨rfl, fun s he => ?_⟩
  have hreadH : hostRead32 ⟨0x060, rfl⟩ (s.setHash hInit).markHashValid = hInit[0] :=
    hostRead32_of_standsAt (x := .h 0) rfl
  refine ⟨(s.setHash hInit).markHashValid, exec_shaInit_of_clean he, rfl, ?_, hreadH, ?_⟩
  · exact exec_shaInit_of_clean (s := (s.setHash hInit).markHashValid) he
  · obtain ⟨-, -, hbit, -⟩ := statusFields (s.setHash hInit).markHashValid
    rw [hbit, State.markHashValid_hValid]

/-! ### The block at `SRC` -/

theorem memRead_getD {a n i : Nat} (hi : i < n) :
    (memRead s a n).toList.getD i 0 = readByte s (a + i) := by
  rw [List.getD_eq_getElem _ _ (by simpa using hi), Vector.getElem_toList, memRead_getElem]

/-- A word packed from a range of `BUF` is `be32` of the four bytes of `BUF` there. -/
theorem be32At_memRead {a n k : Nat} (hk : k + 4 ≤ n) :
    be32At (memRead s a n).toList k =
      be32 (readByte s (a + k)) (readByte s (a + k + 1)) (readByte s (a + k + 2))
        (readByte s (a + k + 3)) := by
  rw [be32At, memRead_getD (by omega), memRead_getD (by omega), memRead_getD (by omega),
    memRead_getD (by omega)]
  rfl

/-! ### SHA_BLOCK -/

/-- Rule R122 when both checks pass, as an update of `H` alone. -/
theorem exec_shaBlock_of_ready (he : s.err = 0) (hv : s.hValid = true)
    (hr : s.src.toNat + 64 ≤ s.bufBytes) :
    exec .shaBlock s = .next { s with h := compress s.h (memRead s s.src.toNat 64) } :=
  execShaBlock_of_ready he hv hr

/-- Settles O15: `W` is the message schedule of the block at `SRC`, and `v t` the working variables after
`t` rounds. -/
theorem shaBlockRunsTheSixtyFourRounds : Obligations.ShaBlockRunsTheSixtyFourRounds := by
  refine ⟨by decide, fun _ => ⟨rfl, rfl, rfl, rfl⟩, fun _ _ _ => ⟨rfl, rfl⟩, fun s he hv hr => ?_⟩
  have hexec := exec_shaBlock_of_ready he hv hr
  have hfirst (t : Nat) (ht : t < 16) :=
    (messageSchedule_block (memRead s s.src.toNat 64) t ht).trans (be32At_memRead (by omega))
  generalize memRead s s.src.toNat 64 = B at hexec hfirst
  refine ⟨fun t => (messageSchedule B).getD t 0, roundState s.h B, hfirst, messageSchedule_next B,
    roundState_zero s.h B, roundState_succ s.h B, ?_⟩
  rw [hexec, compress_eq, feedForward]

/-- Settles O16: the first run leaves `ERR`, `H_VALID`, `SRC` and `BUF` as they were, so the second passes
the same checks and reads the same block. -/
theorem shaBlockChainsCompress : Obligations.ShaBlockChainsCompress := by
  intro s he hv hr B
  have hblock : memRead { s with h := compress s.h B } s.src.toNat 64 = B := memRead_congr rfl rfl ..
  refine ⟨{ s with h := compress s.h B }, exec_shaBlock_of_ready he hv hr, rfl, ?_⟩
  rw [exec_shaBlock_of_ready (s := { s with h := compress s.h B }) he hv hr, hblock]

end Sys2Proof.Machine
end

section
/-! PROOFS. The obligations of `spec/41_aes_tables_keyexp.md`: multiplication and inverse in GF(2^8) (O17,
O18), the S-box pair (O19), the round constants (O22) and `AES_KEYEXP` (O20, O21); and that one CBC block under
a zero IV is a key expansion and a block decryption (O31). -/

namespace Sys2Proof.Machine

variable {s t : State}

/-! ### GF(2^8)

`gmul` is linear over exclusive-or in each argument, so each law of rule R140 is settled by the one-bit
bytes. -/

theorem gmul_comm (a b : Byte) : gmul a b = gmul b a := by
  have hbits : ∀ x ∈ oneBitBytes, ∀ y ∈ oneBitBytes, gmul y x = gmul x y := by decide +kernel
  refine linear_ext (g := fun b => gmul b a) (gmul_xor_right a) (fun x y => gmul_xor_left x y a)
    (fun x hx => ?_) b
  exact linear_ext (f := fun a => gmul a x) (fun y z => gmul_xor_left y z x) (gmul_xor_right x)
    (hbits x hx) a

theorem gmul_one (a : Byte) : gmul a 1 = a :=
  linear_ext (f := fun a => gmul a 1) (g := id) (fun x y => gmul_xor_left x y 1) (fun _ _ => rfl)
    (by decide) a

theorem gmul_zero (a : Byte) : gmul a 0 = 0 := by
  simpa using gmul_xor_right a 0 0

/-- Multiplying by 2 is the doubling step. -/
theorem gmul_two (a : Byte) : gmul a 2 = xtime a :=
  linear_ext (f := fun a => gmul a 2) (fun x y => gmul_xor_left x y 2) xtime_xor (by decide) a

theorem gmul_assoc (a b c : Byte) : gmul (gmul a b) c = gmul a (gmul b c) := by
  have hbits : ∀ x ∈ oneBitBytes, ∀ y ∈ oneBitBytes, ∀ z ∈ oneBitBytes,
      gmul (gmul z y) x = gmul z (gmul y x) := by decide +kernel
  refine linear_ext (g := fun c => gmul a (gmul b c)) (gmul_xor_right _)
    (fun _ _ => by simp only [gmul_xor_right]) (fun x hx => ?_) c
  refine linear_ext (f := fun b => gmul (gmul a b) x) (g := fun b => gmul a (gmul b x))
    (fun _ _ => by simp only [gmul_xor_right, gmul_xor_left])
    (fun _ _ => by simp only [gmul_xor_right, gmul_xor_left]) (fun y hy => ?_) b
  exact linear_ext (f := fun a => gmul (gmul a y) x) (g := fun a => gmul a (gmul y x))
    (fun _ _ => by simp only [gmul_xor_left]) (fun _ _ => by simp only [gmul_xor_left])
    (hbits x hx y hy) a

theorem xtime_eq (a : Byte) :
    xtime a = BitVec.ofNat 8 (a.toNat * 2 % 256) ^^^ if a.getLsbD 7 then 0x1B else 0 := by
  have hshift : a <<< 1 = BitVec.ofNat 8 (a.toNat * 2 % 256) := by
    rw [shiftLeft_eq_ofNat_mul]
    exact BitVec.eq_of_toNat_eq (by simp)
  rw [xtime, hshift, BitVec.msb_eq_getLsbD_last]

/-- Settles O17: the laws above. -/
theorem gmulIsFieldMultiplication : Obligations.GmulIsFieldMultiplication :=
  ⟨gmul_comm, gmul_assoc, gmul_xor_right, gmul_one, gmul_zero,
    fun a => (gmul_two a).trans (xtime_eq a)⟩

/-- Settles O18: `gmul_ginv` gives one inverse, and a product with it cancels. -/
theorem ginvIsTheUniqueInverse : Obligations.GinvIsTheUniqueInverse := by
  refine ⟨ginv_zero, fun a x ha => ⟨fun hx => ?_, fun hx => hx ▸ gmul_ginv a ha⟩⟩
  calc x = gmul x (gmul a (ginv a)) := by rw [gmul_ginv a ha, gmul_one]
    _ = gmul (gmul a x) (ginv a) := by rw [← gmul_assoc, gmul_comm x a]
    _ = ginv a := by rw [hx, gmul_comm, gmul_one]

/-! ### The S-box pair and the round constants -/

/-- The affine transform of rule R142, at the byte `b`. -/
def affineByte (b : Byte) : Byte :=
  b ^^^ rotl8 b 1 ^^^ rotl8 b 2 ^^^ rotl8 b 3 ^^^ rotl8 b 4 ^^^ 0x63

theorem sbox_eq_affineByte : ∀ x : Byte, sbox x = affineByte (ginv x) := by decide +kernel

theorem sbox_ne_self : ∀ x : Byte, sbox x ≠ x := by decide +kernel

theorem invSbox_sbox : ∀ x : Byte, invSbox (sbox x) = x := by decide +kernel

/-- An injective map of the 256 bytes to themselves is onto, so its left inverse is a right inverse. -/
theorem sbox_invSbox (y : Byte) : sbox (invSbox y) = y := by
  have hinj : Function.Injective sbox := Function.LeftInverse.injective invSbox_sbox
  obtain ⟨x, rfl⟩ := Finite.surjective_of_injective hinj y
  rw [invSbox_sbox]

/-- Settles O19: the tables compared with the formula byte by byte. -/
theorem sboxPairFollowsItsFormula : Obligations.SboxPairFollowsItsFormula :=
  ⟨sbox_eq_affineByte, sbox_ne_self, invSbox_sbox, sbox_invSbox⟩

theorem rcon_succ {j : Nat} (hj : 1 ≤ j) : rcon (j + 1) = gmul (rcon j) 0x02 := by
  obtain ⟨k, rfl⟩ := Nat.exists_eq_add_of_le' hj
  rfl

/-- Settles O22: the definition's equations, and the ten values computed from them. -/
theorem roundConstantsAreTheListedTen : Obligations.RoundConstantsAreTheListedTen :=
  ⟨rfl, fun _ => rcon_succ, by decide⟩

/-! ### `RotWord`, `SubWord`, `RconWord` -/

theorem rotWord_toNat (w : Word) :
    (rotWord w).toNat = w.toNat % 2 ^ 24 * 2 ^ 8 + w.toNat / 2 ^ 24 := by
  have hw := w.isLt
  have hlow : w.toNat * 2 ^ (32 - 24) % 2 ^ 32 = (w.toNat % 2 ^ 24) <<< 8 := by
    rw [Nat.shiftLeft_eq]; omega
  have htop : w.toNat / 2 ^ 24 < 2 ^ 8 := by omega
  rw [rotWord, rotl32, rotr32_eq, BitVec.toNat_or, shr32_toNat, BitVec.toNat_ofNat, hlow,
    Nat.lor_comm, ← Nat.shiftLeft_add_eq_or_of_lt htop, Nat.shiftLeft_eq]

theorem rotWord_be32 (b0 b1 b2 b3 : Byte) : rotWord (be32 b0 b1 b2 b3) = be32 b1 b2 b3 b0 := by
  apply BitVec.eq_of_toNat_eq
  rw [rotWord_toNat, be32_toNat, be32_toNat]
  omega

theorem subWord_be32 (b0 b1 b2 b3 : Byte) :
    subWord (be32 b0 b1 b2 b3) = be32 (sbox b0) (sbox b1) (sbox b2) (sbox b3) := by
  simp only [subWord, bytesBe32_be32]
  rfl

theorem rconWord_toNat (j : Nat) : (rconWord j).toNat = (rcon j).toNat * 2 ^ 24 := by
  have hlow : (0 : BitVec 24).toNat = 0 := rfl
  rw [rconWord, BitVec.toNat_append, hlow, Nat.or_zero, Nat.shiftLeft_eq]

/-! ### `AES_KEYEXP` -/

theorem legalKeyLength_of_eq {nk : Nat} (hnk : nk = 4 ∨ nk = 6 ∨ nk = 8)
    (h : s.keylen.toNat = 4 * nk) : legalKeyLength s = true := by
  refine legalKeyLength_iff.2 ?_
  rcases hnk with rfl | rfl | rfl
  · exact .inl (BitVec.eq_of_toNat_eq h)
  · exact .inr (.inl (BitVec.eq_of_toNat_eq h))
  · exact .inr (.inr (BitVec.eq_of_toNat_eq h))

/-- Check 1 of rule R147 fails. -/
theorem execAesKeyexp_of_illegal (he : s.err = 0) (hk : legalKeyLength s = false) :
    execAesKeyexp s = .next (latchError .invalidKeyLength s.keylen s) := by
  rw [execAesKeyexp, unlessLatched_of_clean he, if_pos hk, raise]

/-- What a key expansion leaves unchanged (rule R147). -/
theorem expandIntoKs_frame (s : State) :
    expandIntoKs s = { s with ks := (expandIntoKs s).ks, ksNk := BitVec.ofNat 4 (keyWordCount s),
                              ksValid := true } := by
  apply State.eq_of_fields <;> simp

/-- The expansion reads nothing that it writes. -/
theorem expandIntoKs_idem (s : State) : expandIntoKs (expandIntoKs s) = expandIntoKs s := by
  rw [expandIntoKs_frame s]
  exact (expandIntoKs_withSchedule ..).trans (expandIntoKs_frame s)

section Schedule

variable {nk : Nat} (hnk : keyWordCount s = nk) (h8 : nk ≤ 8)

include hnk

theorem expandIntoKs_ks_getD {i : Nat} (hi : i < 60) :
    (expandIntoKs s).ks.toList.getD i 0 = (expandKey (keyBytes s nk) nk).getD i 0 := by
  rw [expandIntoKs_ks, hnk, scheduleStore_getD _ _ hi]

theorem expandIntoKs_ks_above {i : Nat} (hi : 4 * (nk + 7) ≤ i) (hlt : i < 60) :
    (expandIntoKs s).ks.toList.getD i 0 = 0 := by
  rw [expandIntoKs_ks_getD hnk hlt]
  exact List.getD_eq_default _ _ (by rwa [expandKey_length])

include h8

theorem expandIntoKs_ks_key {i : Nat} (hi : i < nk) :
    (expandIntoKs s).ks.toList.getD i 0 = s.key.toList.getD i 0 := by
  rw [expandIntoKs_ks_getD hnk (by omega), expandKey_key _ _ _ hi, be32At_keyBytes _ _ _ hi h8]

/-- The recurrence of rule R146. -/
theorem expandIntoKs_ks_next (h0 : 0 < nk) {i : Nat} (hi : nk ≤ i) (hlt : i < 4 * (nk + 7)) :
    (expandIntoKs s).ks.toList.getD i 0 = (expandIntoKs s).ks.toList.getD (i - nk) 0 ^^^
      scheduleTemp nk i ((expandIntoKs s).ks.toList.getD (i - 1) 0) := by
  rw [expandIntoKs_ks_getD hnk (by omega), expandIntoKs_ks_getD hnk (by omega),
    expandIntoKs_ks_getD hnk (by omega)]
  exact expandKey_next _ _ _ h0 hi hlt

end Schedule

/-- Settles O20: an illegal key length is check 1 of rule R147; with a legal one the state answered is
`expandIntoKs s`. -/
theorem keyExpansionFollowsTheRecurrence : Obligations.KeyExpansionFollowsTheRecurrence := by
  refine ⟨rfl, fun b0 b1 b2 b3 => ⟨rotWord_be32 b0 b1 b2 b3, subWord_be32 b0 b1 b2 b3⟩, fun _ => rfl,
    rconWord_toNat, fun s he h16 h24 h32 => ?_, fun s nk he hnk hlen => ?_⟩
  · have hk : ¬ legalKeyLength s = true := by
      rw [legalKeyLength_iff]
      exact not_or.2 ⟨h16, not_or.2 ⟨h24, h32⟩⟩
    exact execAesKeyexp_of_illegal he (Bool.eq_false_iff.2 hk)
  · have hk := legalKeyLength_of_eq hnk hlen
    have hcount : keyWordCount s = nk := by rw [keyWordCount, hlen]; omega
    refine ⟨expandIntoKs s, execAesKeyexp_of_legal he hk, hcount ▸ expandIntoKs_frame s,
      fun i => expandIntoKs_ks_key hcount (by omega),
      fun i => expandIntoKs_ks_next hcount (by omega) (by omega),
      fun i => expandIntoKs_ks_above hcount, ?_⟩
    have hagain : execAesKeyexp (expandIntoKs s) = .next (expandIntoKs (expandIntoKs s)) :=
      execAesKeyexp_of_legal (by rw [expandIntoKs_err, he])
        (by rw [legalKeyLength, expandIntoKs_keylen]; exact hk)
    rw [expandIntoKs_idem] at hagain
    exact hagain

theorem keyBytes_withKey {key : Vector Word 8} {nk : Nat}
    (h : ∀ i : Fin 8, i.val < nk → key[i] = s.key[i]) :
    keyBytes { s with key := key } nk = keyBytes s nk := by
  unfold keyBytes
  congr 1
  refine List.ext_getElem (by simp) fun i hi _ => ?_
  rw [List.length_take, Vector.length_toList] at hi
  simpa using h ⟨i, by omega⟩ (by simp only; omega)

theorem expandIntoKs_withKey {key : Vector Word 8}
    (h : ∀ i : Fin 8, i.val < keyWordCount s → key[i] = s.key[i]) :
    expandIntoKs { s with key := key } = { expandIntoKs s with key := key } := by
  have hcount : keyWordCount { s with key := key } = keyWordCount s := rfl
  rw [expandIntoKs, hcount, keyBytes_withKey h]
  rfl

/-- Settles O21: the key bytes expanded are those of the first `Nk` words. -/
theorem keyWordsAboveNkAreIgnored : Obligations.KeyWordsAboveNkAreIgnored := by
  intro s t key he _ hkey h
  rcases execAesKeyexp_cases h with ⟨hne, -⟩ | ⟨-, hk, rfl⟩ | ⟨-, hk, rfl⟩
  · exact absurd he hne
  · exact execAesKeyexp_of_illegal (s := { s with key := key }) he hk
  · rw [← expandIntoKs_withKey hkey]
    exact execAesKeyexp_of_legal (s := { s with key := key }) he hk

/-! ### One block under a zero IV -/

theorem ivBytes_of_zero (h : s.iv = Vector.replicate 4 0) : ivBytes s = Vector.replicate 16 0 := by
  rw [ivBytes, h]
  decide

theorem xorBlock_zero (p : Block) : xorBlock p (Vector.replicate 16 0) = p := by
  ext n hn : 1
  simp

theorem cbcLoop_one (a : Nat) (prev : Block) (s : State) :
    cbcLoop 1 a prev s =
      memWrite s a (xorBlock (decryptBlock s.ks s.ksNk.toNat (memRead s a 16)) prev) := rfl

/-- Settles O31: the loop of rule R191 makes one step, and its exclusive-or with the zero IV changes
nothing. -/
theorem cbcOfOneBlockUnderZeroIv : Obligations.CbcOfOneBlockUnderZeroIv := by
  intro s u he hlen hiv hrange hexp hu
  have hlen16 : s.len.toNat = 16 := by rw [hlen]; rfl
  rcases execAesKeyexp_cases hexp with ⟨hne, -⟩ | ⟨-, -, rfl⟩ | ⟨-, hk, rfl⟩
  · exact absurd he hne
  · exact absurd hu (errorCode_ne_zero .invalidKeyLength)
  · have hcbc := execCbcDecrypt_of_ready he (by omega) hk (by omega)
    have haes := execAesDecblk_of_ready hu expandIntoKs_ksValid
      (by rwa [expandIntoKs_src, expandIntoKs_bufBytes])
    rw [hlen16, cbcLoop_one, ivBytes_of_zero hiv, xorBlock_zero] at hcbc
    rw [expandIntoKs_src] at haes
    exact hcbc.trans haes.symm

end Sys2Proof.Machine
end

section
/-! PROOFS. The obligations of `spec/42_aes_decrypt.md`: the three transformations (O23, O24, O25),
`DecryptBlock` is a bijection (O26), and `AES_DECBLK` decrypts the block at `SRC` in place (O27). -/

namespace Sys2Proof.Machine

/-! ### `AddRoundKey` -/

@[simp] theorem addRoundKey_getElem (ks : Vector Word 60) (r : Nat) (st : Block) {n : Nat} (h : n < 16) :
    (addRoundKey ks r st)[n] = st[n] ^^^ roundKeyByte ks r n := by
  simp [addRoundKey]

/-- Byte `i` of column `c` of a round key that lies in `KS` is a byte of the schedule word of that
column. -/
theorem roundKeyByte_column (ks : Vector Word 60) {r c i : Nat} (hc : 4 * r + c < 60) (hi : i < 4) :
    roundKeyByte ks r (4 * c + i) = (bytesBe32 ks[4 * r + c])[i] := by
  have hcolumn : (4 * c + i) / 4 = c := by omega
  have hrow : (4 * c + i) % 4 = i := by omega
  simp [roundKeyByte, List.getD_eq_getElem?_getD, hcolumn, hrow, hc, hi]

theorem addRoundKey_involutive (ks : Vector Word 60) (r : Nat) :
    Function.Involutive (addRoundKey ks r) := by
  intro st
  ext n hn : 1
  simp

/-- Settles O23: byte `4c + i` of the round key is byte `i` of its word `c`, and adding it twice cancels. -/
theorem addRoundKeyXorsFourWords : Obligations.AddRoundKeyXorsFourWords := by
  intro ks r S
  refine ⟨fun c i => ?_, addRoundKey_involutive ks r S⟩
  rw [addRoundKey_getElem, roundKeyByte_column ks (by omega) i.isLt]

/-! ### `InvShiftSub` -/

@[simp] theorem invShiftSub_getElem (st : Block) {n : Nat} (h : n < 16) :
    (invShiftSub st)[n] = invSbox st[invShiftIndex ⟨n, h⟩] := by
  simp [invShiftSub]

/-- The permutation `p` as rule R173 lists it. -/
theorem invShiftIndex_val : ∀ n : Fin 16,
    (invShiftIndex n).val =
      [0, 13, 10, 7, 4, 1, 14, 11, 8, 5, 2, 15, 12, 9, 6, 3].getD n.val 0 := by decide

/-- Settles O24: the source index is the listed one. -/
theorem invShiftSubPermutesAndSubstitutes : Obligations.InvShiftSubPermutesAndSubstitutes := by
  intro S n
  rw [← invShiftIndex_val, List.getD_eq_getElem _ _ (by simp), Vector.getElem_toList]
  exact invShiftSub_getElem S n.isLt

/-- The index to which rule R173 moves a byte: row `i` moves `i` columns to the right. -/
def shiftIndex (n : Fin 16) : Fin 16 :=
  ⟨4 * ((n.val / 4 + n.val % 4) % 4) + n.val % 4, by omega⟩

theorem invShiftIndex_shiftIndex : ∀ n, invShiftIndex (shiftIndex n) = n := by decide

theorem shiftIndex_invShiftIndex : ∀ n, shiftIndex (invShiftIndex n) = n := by decide

/-- The inverse of `InvShiftSub`: each byte through the S-box, moved back. -/
def shiftSub (st : Block) : Block := Vector.ofFn fun n => sbox st[shiftIndex n]

@[simp] theorem shiftSub_getElem (st : Block) {n : Nat} (h : n < 16) :
    (shiftSub st)[n] = sbox st[shiftIndex ⟨n, h⟩] := by
  simp [shiftSub]

theorem shiftSub_invShiftSub (st : Block) : shiftSub (invShiftSub st) = st := by
  ext n hn : 1
  simp [sbox_invSbox, invShiftIndex_shiftIndex]

theorem invShiftSub_shiftSub (st : Block) : invShiftSub (shiftSub st) = st := by
  ext n hn : 1
  simp [invSbox_sbox, shiftIndex_invShiftIndex]

theorem invShiftSub_bijective : Function.Bijective invShiftSub :=
  Function.bijective_iff_has_inverse.mpr ⟨shiftSub, shiftSub_invShiftSub, invShiftSub_shiftSub⟩

/-! ### `InvMixColumns` -/

/-- Rule R174 for one byte: the four coefficients applied to its column, starting at the byte itself. -/
@[simp] theorem invMixColumns_getElem (st : Block) {n : Nat} (h : n < 16) :
    (invMixColumns st)[n] =
      gmul (columnByte st ⟨n, h⟩ 0) 0x0E ^^^ gmul (columnByte st ⟨n, h⟩ 1) 0x0B ^^^
        gmul (columnByte st ⟨n, h⟩ 2) 0x0D ^^^ gmul (columnByte st ⟨n, h⟩ 3) 0x09 := by
  simp [invMixColumns]

theorem columnByte_zero (st : Block) {n : Nat} (h : n < 16) : columnByte st ⟨n, h⟩ 0 = st[n] := by
  have hn : 4 * (n / 4) + n % 4 = n := Nat.div_add_mod n 4
  simp [columnByte, hn]

/-- A byte by its column and row. -/
theorem columnByte_column (st : Block) {c i : Nat} (hc : c < 4) (hi : i < 4) (k : Nat) :
    columnByte st ⟨4 * c + i, by omega⟩ k = st[4 * c + (i + k) % 4] := by
  have hcolumn : (4 * c + i) / 4 = c := by omega
  have hrow : (4 * c + i) % 4 = i := by omega
  simp only [columnByte, hcolumn, hrow]

theorem columnByte_xorBlock (X Y : Block) (n : Fin 16) (k : Nat) :
    columnByte (xorBlock X Y) n k = columnByte X n k ^^^ columnByte Y n k := by
  simp [columnByte]

theorem invMixColumns_xorBlock (X Y : Block) :
    invMixColumns (xorBlock X Y) = xorBlock (invMixColumns X) (invMixColumns Y) := by
  ext n hn : 1
  simp only [invMixColumns_getElem, xorBlock_getElem, columnByte_xorBlock, gmul_xor_left]
  ac_rfl

/-- Row `i` of a column by rule R174, each product with the coefficient first. -/
theorem invMixColumns_column (st : Block) {c i : Nat} (hc : c < 4) (hi : i < 4) :
    (invMixColumns st)[4 * c + i] =
      gmul 0x0E st[4 * c + i] ^^^ gmul 0x0B st[4 * c + (i + 1) % 4] ^^^
        gmul 0x0D st[4 * c + (i + 2) % 4] ^^^ gmul 0x09 st[4 * c + (i + 3) % 4] := by
  rw [invMixColumns_getElem, columnByte_zero]
  simp only [columnByte_column st hc hi, gmul_comm _ 0x0E, gmul_comm _ 0x0B, gmul_comm _ 0x0D,
    gmul_comm _ 0x09]

/-- Settles O25: the rows of a column are the four rotations of the coefficients, and every product is
linear. -/
theorem invMixColumnsMatrixAndLinearity : Obligations.InvMixColumnsMatrixAndLinearity := by
  refine ⟨fun S c hc => ⟨?_, ?_, ?_, ?_⟩, invMixColumns_xorBlock⟩
  · exact invMixColumns_column S hc (i := 0) (by decide)
  · rw [invMixColumns_column S hc (i := 1) (by decide)]
    ac_rfl
  · rw [invMixColumns_column S hc (i := 2) (by decide)]
    ac_rfl
  · rw [invMixColumns_column S hc (i := 3) (by decide)]
    ac_rfl

/-- The bytes of a column are cyclic. -/
theorem columnByte_add_four (st : Block) (n : Fin 16) (k : Nat) :
    columnByte st n (k + 4) = columnByte st n k := by
  have hrow : (n.val % 4 + (k + 4)) % 4 = (n.val % 4 + k) % 4 := by omega
  simp only [columnByte, hrow]

theorem columnByte_invMixColumns (st : Block) (n : Fin 16) (k : Nat) :
    columnByte (invMixColumns st) n k =
      gmul (columnByte st n k) 0x0E ^^^ gmul (columnByte st n (k + 1)) 0x0B ^^^
        gmul (columnByte st n (k + 2)) 0x0D ^^^ gmul (columnByte st n (k + 3)) 0x09 := by
  have hrow : (n.val % 4 + k) % 4 < 4 := by omega
  have hadd (j : Nat) : ((n.val % 4 + k) % 4 + j) % 4 = (n.val % 4 + (k + j)) % 4 := by omega
  have hbyte (j : Nat) := columnByte_column st (c := n.val / 4) (by omega) hrow j
  rw [columnByte, invMixColumns_getElem]
  simp only [hbyte, hadd]
  rfl

/-- The coefficients of the square of the matrix of rule R174: coefficient `k` is the sum of the products of
coefficients whose places add up to `k` (mod 4). -/
theorem squaredCoefficients :
    gmul 0x0E 0x0E ^^^ gmul 0x09 0x0B ^^^ gmul 0x0D 0x0D ^^^ gmul 0x0B 0x09 = 0x05 ∧
    gmul 0x0B 0x0E ^^^ gmul 0x0E 0x0B ^^^ gmul 0x09 0x0D ^^^ gmul 0x0D 0x09 = 0 ∧
    gmul 0x0D 0x0E ^^^ gmul 0x0B 0x0B ^^^ gmul 0x0E 0x0D ^^^ gmul 0x09 0x09 = 0x04 ∧
    gmul 0x09 0x0E ^^^ gmul 0x0D 0x0B ^^^ gmul 0x0B 0x0D ^^^ gmul 0x0E 0x09 = 0 := by decide

theorem columnByte_invMixColumns_twice (st : Block) (n : Fin 16) (k : Nat) :
    columnByte (invMixColumns (invMixColumns st)) n k =
      gmul (columnByte st n k) 0x05 ^^^ gmul (columnByte st n (k + 2)) 0x04 := by
  have h4 := columnByte_add_four st n k
  have h5 : columnByte st n (k + 5) = columnByte st n (k + 1) := columnByte_add_four st n (k + 1)
  have h6 : columnByte st n (k + 6) = columnByte st n (k + 2) := columnByte_add_four st n (k + 2)
  obtain ⟨hzero, hone, htwo, hthree⟩ := squaredCoefficients
  calc columnByte (invMixColumns (invMixColumns st)) n k
    _ = gmul (columnByte st n k)
            (gmul 0x0E 0x0E ^^^ gmul 0x09 0x0B ^^^ gmul 0x0D 0x0D ^^^ gmul 0x0B 0x09) ^^^
          gmul (columnByte st n (k + 1))
            (gmul 0x0B 0x0E ^^^ gmul 0x0E 0x0B ^^^ gmul 0x09 0x0D ^^^ gmul 0x0D 0x09) ^^^
          gmul (columnByte st n (k + 2))
            (gmul 0x0D 0x0E ^^^ gmul 0x0B 0x0B ^^^ gmul 0x0E 0x0D ^^^ gmul 0x09 0x09) ^^^
          gmul (columnByte st n (k + 3))
            (gmul 0x09 0x0E ^^^ gmul 0x0D 0x0B ^^^ gmul 0x0B 0x0D ^^^ gmul 0x0E 0x09) := by
      simp only [columnByte_invMixColumns, Nat.add_assoc, Nat.reduceAdd, h4, h5, h6, gmul_xor_left,
        gmul_xor_right, gmul_assoc]
      ac_rfl
    _ = gmul (columnByte st n k) 0x05 ^^^ gmul (columnByte st n (k + 1)) 0 ^^^
          gmul (columnByte st n (k + 2)) 0x04 ^^^ gmul (columnByte st n (k + 3)) 0 := by
      rw [hzero, hone, htwo, hthree]
    _ = gmul (columnByte st n k) 0x05 ^^^ gmul (columnByte st n (k + 2)) 0x04 := by
      rw [gmul_zero, gmul_zero]
      simp

/-- The fourth power of the matrix is the identity. -/
theorem invMixColumns_four_times (st : Block) :
    invMixColumns (invMixColumns (invMixColumns (invMixColumns st))) = st := by
  ext n hn : 1
  have hcyclic := columnByte_add_four st ⟨n, hn⟩ 0
  have hsquares : gmul 0x05 0x05 ^^^ gmul 0x04 0x04 = 1 := by decide
  rw [← columnByte_zero _ hn, ← columnByte_zero _ hn]
  generalize (⟨n, hn⟩ : Fin 16) = i at *
  calc columnByte (invMixColumns (invMixColumns (invMixColumns (invMixColumns st)))) i 0
    _ = gmul (columnByte st i 0) (gmul 0x05 0x05 ^^^ gmul 0x04 0x04) ^^^
          gmul (columnByte st i 2) (gmul 0x04 0x05 ^^^ gmul 0x05 0x04) := by
      simp only [columnByte_invMixColumns_twice, Nat.reduceAdd, hcyclic, gmul_xor_left,
        gmul_xor_right, gmul_assoc]
      ac_rfl
    _ = columnByte st i 0 := by
      rw [hsquares, gmul_one, gmul_comm 0x04 0x05, BitVec.xor_self]
      exact (congrArg _ (gmul_zero _)).trans BitVec.xor_zero

theorem invMixColumns_bijective : Function.Bijective invMixColumns :=
  Function.bijective_iff_has_inverse.mpr
    ⟨fun st => invMixColumns (invMixColumns (invMixColumns st)), invMixColumns_four_times,
      invMixColumns_four_times⟩

/-! ### `DecryptBlock` -/

theorem decryptRounds_bijective (ks : Vector Word 60) (r : Nat) :
    Function.Bijective (decryptRounds ks r) := by
  induction r with
  | zero => exact Function.bijective_id
  | succ r ih =>
    exact ih.comp (invMixColumns_bijective.comp
      ((addRoundKey_involutive ks (r + 1)).bijective.comp invShiftSub_bijective))

theorem decryptBlock_bijective (ks : Vector Word 60) (nk : Nat) :
    Function.Bijective (decryptBlock ks nk) :=
  (addRoundKey_involutive ks 0).bijective.comp <| invShiftSub_bijective.comp <|
    (decryptRounds_bijective ks (nk + 5)).comp (addRoundKey_involutive ks (nk + 6)).bijective

/-- Settles O26: every step of rule R176 is a bijection. -/
theorem decryptBlockIsABijection : Obligations.DecryptBlockIsABijection :=
  fun ks nk _ => decryptBlock_bijective ks nk

/-- The states of rule R176 between the rounds: `S r` is the state before the steps of round `r`, so `S n`
is the state the rounds start from and `S 0` is the one they leave. -/
theorem decryptRounds_states (ks : Vector Word 60) (n : Nat) (st : Block) :
    ∃ S : Nat → Block, S n = st ∧
      (∀ r, r < n → S r = invMixColumns (addRoundKey ks (r + 1) (invShiftSub (S (r + 1))))) ∧
      decryptRounds ks n st = S 0 := by
  induction n generalizing st with
  | zero => exact ⟨fun _ => st, rfl, by simp, rfl⟩
  | succ n ih =>
    obtain ⟨S, hstart, hround, hend⟩ :=
      ih (invMixColumns (addRoundKey ks (n + 1) (invShiftSub st)))
    have hbelow (r : Nat) (hr : r ≤ n) : Function.update S (n + 1) st r = S r :=
      Function.update_of_ne (by omega) ..
    refine ⟨Function.update S (n + 1) st, Function.update_self .., fun r hr => ?_, ?_⟩
    · rw [hbelow r (by omega)]
      rcases Nat.lt_succ_iff_lt_or_eq.mp hr with hlt | rfl
      · rw [hbelow (r + 1) hlt, hround r hlt]
      · rw [Function.update_self, hstart]
    · rw [hbelow 0 (Nat.zero_le n), decryptRounds, hend]

/-! ### `AES_DECBLK` -/

/-- `MemWrite` changes `BUF` alone. -/
theorem memWrite_frame {n : Nat} (s : State) (a : Nat) (b : Vector Byte n) :
    memWrite s a b = { s with buf := (memWrite s a b).buf } := rfl

/-- Rule R177 when both checks pass. -/
theorem exec_aesDecblk_of_ready {s : State} (he : s.err = 0) (hv : s.ksValid = true)
    (hr : s.src.toNat + 16 ≤ s.bufBytes) :
    exec .aesDecblk s = .next
      (memWrite s s.src.toNat (decryptBlock s.ks s.ksNk.toNat (memRead s s.src.toNat 16))) :=
  execAesDecblk_of_ready he hv hr

/-- Settles O27: the states are those of the rounds, started from the block at `SRC` with the last round key
added. -/
theorem aesDecblkDecryptsInPlace : Obligations.AesDecblkDecryptsInPlace := by
  intro s he hv hrange
  obtain ⟨S, hstart, hround, hend⟩ := decryptRounds_states s.ks (s.ksNk.toNat + 5)
    (addRoundKey s.ks (s.ksNk.toNat + 6) (memRead s s.src.toNat 16))
  have hexec := exec_aesDecblk_of_ready he hv hrange
  rw [decryptBlock, hend] at hexec
  refine ⟨S, _, hstart, hround, hexec, memWrite_frame .., fun n => ?_, fun a ha => ?_⟩
  · exact readByte_memWrite_inside _ _ _ _ n.isLt
  · exact readByte_memWrite_outside _ _ _ _ ha

end Sys2Proof.Machine
end

section
/-! PROOFS. The obligations of `spec/43_cbc.md`: `CBC_DECRYPT` computes the chain (O28), and a chain
decrypted in two pieces is the chain decrypted whole (O29). -/

namespace Sys2Proof.Machine

variable {s : State}

/-! ### The whole command -/

theorem readByte_expandIntoKs (s : State) (a : Nat) : readByte (expandIntoKs s) a = readByte s a :=
  readByte_congr expandIntoKs_buf expandIntoKs_resets a

theorem memRead_expandIntoKs (s : State) (a n : Nat) :
    memRead (expandIntoKs s) a n = memRead s a n :=
  memRead_congr expandIntoKs_buf expandIntoKs_resets a n

/-- What a key expansion and the loop after it leave unchanged (rules R190 to R192). -/
theorem cbcLoop_expandIntoKs_frame (m a : Nat) (prev : Block) (s : State) :
    cbcLoop m a prev (expandIntoKs s) =
      { s with ks := (expandIntoKs s).ks, ksNk := (expandIntoKs s).ksNk, ksValid := true,
               buf := (cbcLoop m a prev (expandIntoKs s)).buf } := by
  apply State.eq_of_fields <;> simp

/-- Settles O28: the schedule is that of `expandIntoKs`, and the bytes are those of `cbcLoop_inside` and
`cbcLoop_outside`, where the expansion has not touched `BUF`. -/
theorem cbcDecryptComputesTheChain : Obligations.CbcDecryptComputesTheChain := by
  intro s he hlen hkeylen hrange
  have hk : legalKeyLength s = true := legalKeyLength_iff.2 hkeylen
  refine ⟨_, expandIntoKs s, execCbcDecrypt_of_ready he hlen hk hrange,
    execAesKeyexp_of_legal he hk, cbcLoop_expandIntoKs_frame .., fun j n hj => ?_, fun a ha => ?_⟩
  · rw [cbcLoop_inside _ _ _ _ j _ n rfl hj n.isLt, expandIntoKs_ksNk_toNat hk, memRead_expandIntoKs,
      readByte_expandIntoKs, keyWordCount]
    congr 1
    rcases j with _ | j
    · rfl
    · have hbefore : s.src.toNat + 16 * (j + 1) - 16 = s.src.toNat + 16 * j := by omega
      rw [if_neg (by omega), if_neg (by omega), hbefore, Nat.add_sub_cancel]
  · rw [cbcLoop_outside _ _ _ _ _ (by omega), readByte_expandIntoKs]

/-! ### A chain in two pieces

The second piece starts from the state the first one left, but for `SRC`, `LEN` and `IV`. The loop reads
none of the three, so the state after the second piece is the state after the whole chain, again but for
`SRC`, `LEN` and `IV`. -/

/-- The operands of one piece of a chain: `SRC <- src; LEN <- len; IV <- iv`. -/
def State.withPiece (s : State) (src len : Word) (iv : Vector Word 4) : State :=
  { s with src := src, len := len, iv := iv }

section Piece

variable (s : State) (src len : Word) (iv : Vector Word 4)

theorem memRead_withPiece (a n : Nat) : memRead (s.withPiece src len iv) a n = memRead s a n := rfl

theorem memWrite_withPiece {n : Nat} (a : Nat) (b : Vector Byte n) :
    memWrite (s.withPiece src len iv) a b = (memWrite s a b).withPiece src len iv := rfl

theorem expandIntoKs_withPiece :
    expandIntoKs (s.withPiece src len iv) = (expandIntoKs s).withPiece src len iv := rfl

theorem cbcLoop_withPiece (m a : Nat) (prev : Block) :
    cbcLoop m a prev (s.withPiece src len iv) = (cbcLoop m a prev s).withPiece src len iv := by
  induction m generalizing a prev s with
  | zero => rfl
  | succ m ih =>
    rw [cbcLoop, cbcLoop, memRead_withPiece, memWrite_withPiece, ih]
    rfl

end Piece

/-- `CBC_DECRYPT` over `n` blocks at `src`, from a state that is ready but for the operands of the piece. -/
theorem exec_cbcDecrypt_withPiece (he : s.err = 0) (hk : legalKeyLength s = true) {src : Word} {a n : Nat}
    {iv : Vector Word 4} {prev : Block} (hn : 16 * n < 2 ^ 32) (ha : src.toNat = a)
    (hr : a + 16 * n ≤ s.bufBytes)
    (hiv : ivBytes (s.withPiece src (BitVec.ofNat 32 (16 * n)) iv) = prev) :
    exec .cbcDecrypt (s.withPiece src (BitVec.ofNat 32 (16 * n)) iv) =
      .next ((cbcLoop n a prev (expandIntoKs s)).withPiece src (BitVec.ofNat 32 (16 * n)) iv) := by
  subst ha hiv
  have hlen : (s.withPiece src (BitVec.ofNat 32 (16 * n)) iv).len.toNat = 16 * n := Nat.mod_eq_of_lt hn
  have hexec := execCbcDecrypt_of_ready (s := s.withPiece src (BitVec.ofNat 32 (16 * n)) iv) he
    (by omega) hk (by rwa [hlen])
  rwa [hlen, Nat.mul_div_cancel_left n (by decide), expandIntoKs_withPiece, cbcLoop_withPiece] at hexec

/-- One step of the loop (rule R191). -/
theorem cbcLoop_succ (m a : Nat) (prev : Block) (s : State) :
    cbcLoop (m + 1) a prev s =
      cbcLoop m (a + 16) (memRead s a 16)
        (memWrite s a (xorBlock (decryptBlock s.ks s.ksNk.toNat (memRead s a 16)) prev)) := rfl

/-- The loop over `m + 1 + k` blocks is the loop over the first `m + 1` and then over the other `k`, with
the last ciphertext block of the first piece, as it was before the loop, for feedback (rule R191). -/
theorem cbcLoop_add (m k a : Nat) (prev : Block) (s : State) :
    cbcLoop (m + 1 + k) a prev s =
      cbcLoop k (a + 16 * (m + 1)) (memRead s (a + 16 * m) 16) (cbcLoop (m + 1) a prev s) := by
  induction m generalizing a prev s with
  | zero =>
    rw [Nat.zero_add, Nat.add_comm 1 k]
    rfl
  | succ m ih =>
    have hlast : a + 16 + 16 * m = a + 16 * (m + 1) := by omega
    have hnext : a + 16 + 16 * (m + 1) = a + 16 * (m + 1 + 1) := by omega
    rw [Nat.add_right_comm (m + 1) 1 k, cbcLoop_succ, ih, ← cbcLoop_succ, hlast, hnext,
      memRead_memWrite_apart _ _ _ _ _ (by omega)]

theorem expandIntoKs_withBuf (s : State) (b : Memory) :
    expandIntoKs { s with buf := b } = { expandIntoKs s with buf := b } := rfl

/-- The loop writes neither `KEY` nor `KEYLEN`, so expanding the key again gives the same schedule. -/
theorem expandIntoKs_cbcLoop (m a : Nat) (prev : Block) (s : State) :
    expandIntoKs (cbcLoop m a prev (expandIntoKs s)) = cbcLoop m a prev (expandIntoKs s) := by
  rw [cbcLoop_frame, expandIntoKs_withBuf, expandIntoKs_idem]

/-- The IV bytes after a block of `BUF` has been written into `IV` are the bytes of that block. -/
theorem ivBytes_windowWords (s t : State) (a : Nat) (src len : Word) :
    ivBytes (t.withPiece src len (Vector.ofFn fun i : Fin 4 => windowWord s (a + 4 * i.val))) =
      memRead s a 16 := by
  ext n hn : 1
  have hrow : n % 4 < 4 := by omega
  have hbyte := windowWord_byte (s := s) hrow (a + 4 * (n / 4))
  rw [Nat.add_assoc, Nat.div_add_mod] at hbyte
  rw [memRead_getElem, ← hbyte]
  simp [ivBytes, State.withPiece, List.getD_eq_getElem?_getD, hrow]

/-- Settles O29: `CBC_DECRYPT` from the state that the first piece left expands the key to the same schedule
and takes the last ciphertext block for feedback, so by `cbcLoop_add` its loop ends where the loop over the
whole does. -/
theorem cbcDecryptInTwoPieces : Obligations.CbcDecryptInTwoPieces := by
  intro s m k he hm hlen hkeylen hrange hbuf
  obtain ⟨m, rfl⟩ := Nat.exists_eq_add_one_of_ne_zero hm.ne'
  have hk : legalKeyLength s = true := legalKeyLength_iff.2 hkeylen
  have hsrc : (s.src + BitVec.ofNat 32 (16 * (m + 1))).toNat = s.src.toNat + 16 * (m + 1) := by
    rw [BitVec.toNat_add, BitVec.toNat_ofNat]
    omega
  have hwhole := exec_cbcDecrypt_withPiece (src := s.src) (iv := s.iv) he hk hlen rfl hrange rfl
  have hfirst := exec_cbcDecrypt_withPiece (src := s.src) (n := m + 1) (iv := s.iv) he hk (by omega) rfl
    (by omega) rfl
  have hsecond := exec_cbcDecrypt_withPiece (n := k)
    (s := cbcLoop (m + 1) s.src.toNat (ivBytes s) (expandIntoKs s))
    (by rwa [cbcLoop_err, expandIntoKs_err])
    (by rwa [legalKeyLength, cbcLoop_keylen, expandIntoKs_keylen]) (by omega) hsrc
    (by rw [cbcLoop_bufBytes, expandIntoKs_bufBytes]; omega)
    (ivBytes_windowWords s _ (s.src.toNat + 16 * m) _ _)
  rw [expandIntoKs_cbcLoop, ← memRead_expandIntoKs, ← cbcLoop_add] at hsecond
  exact ⟨_, _, _, hwhole, hfirst, hsecond, fun _ => rfl, rfl, rfl, rfl⟩

end Sys2Proof.Machine
end

section
/-! PROOFS. The obligations of `spec/44_system_commands.md`: `NOP` changes nothing (O11) and `CLEAR` zeroes
everything but `BUF` (O12), each with an error latched or without. -/

namespace Sys2Proof.Machine

variable {s : State}

/-! ### NOP -/

/-- Rule R205, in every state. -/
theorem exec_nop (s : State) : exec .nop s = .next s := rfl

/-- Settles O11: the word 0 is the command word of `NOP`, so a write of it to `CMD` runs `NOP`. -/
theorem nopChangesNothing : Obligations.NopChangesNothing := by
  refine ⟨rfl, exec_nop, fun s => ?_⟩
  calc hostWrite32 ⟨0x000, rfl⟩ (encode .nop) s
    _ = takeCommand (encode .nop) s := hostWrite32_cmd _ s
    _ = exec .nop s := takeCommand_encode .nop s
    _ = .next s := exec_nop s

/-! ### CLEAR -/

/-- Rule R206, in every state. -/
theorem exec_clear (s : State) : exec .clear s = .next (clearRegisters s) := rfl

/-- The values `CLEAR` gives are those of hard reset (rule R45). -/
theorem clearRegisters_eq_reset :
    clearRegisters s = { State.reset with
      buf := s.buf, bufBytes := s.bufBytes, resets := s.resets
      pending := s.pending, reads := s.reads } := rfl

@[simp] theorem clearRegisters_idem : clearRegisters (clearRegisters s) = clearRegisters s := rfl

/-- `STATUS` is a view of registers and flags that `CLEAR` has zeroed (rule R27). -/
@[simp] theorem status_clearRegisters : status (clearRegisters s) = 0 := by
  simp [status, errf, busy]

/-- Settles O12: the state answered is `clearRegisters s`, which clearing again leaves as it is. -/
theorem clearZeroesAllButBuf : Obligations.ClearZeroesAllButBuf := by
  refine ⟨rfl, fun s => ⟨clearRegisters s, exec_clear s, rfl, clearRegisters_eq_reset, ?_, ?_⟩⟩
  · rw [exec_clear, clearRegisters_idem]
  · calc hostRead32 ⟨0x004, rfl⟩ (clearRegisters s)
      _ = status (clearRegisters s) := hostRead32_of_standsAt (x := .status) rfl
      _ = 0x00000000 := status_clearRegisters

end Sys2Proof.Machine
end

section
/-! PROOFS. The obligations of `spec/45_host_procedures.md`: the shape of `Pad` (O55), the buffers that
`stripPadding` accepts (O56), `digest` as the chain of `Compress` over the padded message (O57), and the files
whose master-key section is ignored (O58) or that are too short for a result (O59). -/

namespace Sys2Proof.Machine

variable {s : State}

/-! ### `Pad` (rule R220) -/

/-- The value of bytes read most significant first, begun at `n`, takes four bytes of a word at a time. -/
theorem foldl_wordBytes_cons (w : Word) (ws : List Word) (n : Nat) :
    (wordBytes (w :: ws)).foldl (fun n b => 2 ^ 8 * n + b.toNat) n =
      (wordBytes ws).foldl (fun n b => 2 ^ 8 * n + b.toNat) (2 ^ 32 * n + w.toNat) := by
  have hw := w.isLt
  have hword : (bytesBe32 w).toList.foldl (fun n b => 2 ^ 8 * n + b.toNat) n = 2 ^ 32 * n + w.toNat := by
    simp only [bytesBe32, Vector.toList_mk, List.foldl_cons, List.foldl_nil, extract_byte_toNat]
    omega
  rw [← hword, ← List.foldl_append]
  rfl

@[simp] theorem bytesBe64_length (n : Nat) : (bytesBe64 n).length = 8 := wordBytes_length _

/-- The eight bytes give the value back. -/
theorem foldl_bytesBe64 {n : Nat} (hn : n < 2 ^ 64) :
    (bytesBe64 n).foldl (fun n b => 2 ^ 8 * n + b.toNat) 0 = n := by
  rw [bytesBe64, foldl_wordBytes_cons, foldl_wordBytes_cons]
  simp only [wordBytes, List.flatMap_nil, List.foldl_nil, BitVec.toNat_ofNat]
  omega

theorem padZeros_fills (len : Nat) : (len + 1 + padZeros len) % 64 = 56 := by
  rw [padZeros]; omega

theorem padZeros_lt (len : Nat) : padZeros len < 64 := Nat.mod_lt _ (by decide)

/-- Settles O55: with fewer than 64 zero bytes and the length right modulo 64, the length is the least
multiple of 64 that holds the nine bytes `Pad` always adds. -/
theorem padShapeAndLength : Obligations.PadShapeAndLength := by
  refine ⟨fun m hm => ?_, fun m hm => if_neg (by omega)⟩
  have hfills := padZeros_fills m.length
  have hlt := padZeros_lt m.length
  exact ⟨padZeros m.length, if_pos hm, hfills, fun y hy => by omega, by omega, fun k hk => by omega,
    bytesBe64_length _, foldl_bytesBe64 (by omega)⟩

/-! ### `stripPadding` (rule R224) -/

/-- A buffer that ends in `n` bytes equal to `n` loses them. -/
theorem stripPadding_append_replicate (out : List Byte) {n : Byte} (h1 : 1 ≤ n.toNat)
    (h16 : n.toNat ≤ 16) : stripPadding (out ++ List.replicate n.toNat n) = some out := by
  have hlast : (out ++ List.replicate n.toNat n).getLast? = some n := by
    rw [List.getLast?_append, List.getLast?_replicate, if_neg (by omega), Option.some_or]
  have hlength : (out ++ List.replicate n.toNat n).length - n.toNat = out.length := by simp
  have hequal : (List.replicate n.toNat n).all (· == n) = true := by simp
  simp only [stripPadding, hlast, hlength, List.drop_left, List.take_left]
  rw [if_neg (by omega), if_neg (by simp), if_pos hequal]

/-- A buffer that is accepted ends in `n` bytes equal to `n`, behind what is returned. -/
theorem stripPadding_eq_some {buffer out : List Byte} (h : stripPadding buffer = some out) :
    ∃ n : Byte, 1 ≤ n.toNat ∧ n.toNat ≤ 16 ∧ buffer = out ++ List.replicate n.toNat n := by
  cases hlast : buffer.getLast? with
  | none => simp [stripPadding, hlast] at h
  | some n =>
    simp only [stripPadding, hlast, Option.ite_none_left_eq_some, Option.ite_none_right_eq_some,
      Option.some.injEq] at h
    obtain ⟨hrange, hfits, hequal, rfl⟩ := h
    have hend : buffer.drop (buffer.length - n.toNat) = List.replicate n.toNat n :=
      List.eq_replicate_iff.2 ⟨by rw [List.length_drop]; omega, by simpa using hequal⟩
    exact ⟨n, by omega, by omega, by rw [← hend, List.take_append_drop]⟩

/-- Settles O56. -/
theorem stripPaddingAcceptsExactly : Obligations.StripPaddingAcceptsExactly := fun _ out =>
  ⟨stripPadding_eq_some, fun ⟨_, h1, h16, hbuffer⟩ => hbuffer ▸ stripPadding_append_replicate out h1 h16⟩

/-! ### `digest` (rule R221) -/

theorem runLines_cons {l : HostLine} {ls : List HostLine} {t : State}
    (h : hostAccess l.event s = .next t) : runLines (l :: ls) s = runLines ls t := by
  rw [runLines, h]

/-- A `CMD` line performs its command (rules R97, R93). -/
theorem hostAccess_cmd (i : Instr) (s : State) : hostAccess (HostLine.cmd i).event s = exec i s :=
  takeCommand_encode i s

theorem hostAccess_wr_src (v : Word) (s : State) :
    hostAccess (HostLine.wr .src v).event s = .next (s.setSrc v) := rfl

/-- What `SHA_BLOCK` of a block at the start of `BUF` needs: no error latched, `H` initialised, a legal
buffer. -/
structure State.ReadyToHash (s : State) : Prop where
  err : s.err = 0
  hValid : s.hValid = true
  legal : Config.legalBufBytes s.bufBytes = true

/-- `CMD SHA_INIT` on a clean engine makes it ready, with `HINIT` in `H`. -/
theorem procLines_shaInit (he : s.err = 0) (hlegal : Config.legalBufBytes s.bufBytes = true) :
    ∃ t, procLines [.cmd .shaInit] s = .done t () ∧ t.ReadyToHash ∧ t.h = hInit := by
  have hexec := (hostAccess_cmd .shaInit s).trans (exec_shaInit_of_clean he)
  exact ⟨(s.setHash hInit).markHashValid, by rw [procLines, runLines_cons hexec]; rfl,
    ⟨he, rfl, hlegal⟩, rfl⟩

/-- `LDBYTES` of a block at the start of `BUF` puts it there and keeps the engine ready. -/
theorem procLoad_block (hs : s.ReadyToHash) (b : Vector Byte 64) :
    ∃ t, procLoad 0 b.toList s = .done t () ∧ t.ReadyToHash ∧ t.h = s.h ∧ memRead t 0 64 = b := by
  obtain ⟨-, hsize, -⟩ := (legalBufBytes_iff _).1 hs.legal
  have hfits : 0 + b.toList.length ≤ s.bufBytes := by rw [Vector.length_toList]; omega
  obtain ⟨t, hload, ht, hbyte⟩ := loadBytes_spec hs.legal hfits
  refine ⟨t, by rw [procLoad, if_pos hfits, hload]; rfl, ?_, by rw [ht], ?_⟩
  · rw [ht]; exact ⟨hs.err, hs.hValid, hs.legal⟩
  · ext i hi : 1
    rw [memRead_getElem, hbyte, loadedByte_inside (by simpa using hi),
      List.getD_eq_getElem _ _ (by simpa using hi), Vector.getElem_toList]

/-- `WR SRC, 0` and `CMD SHA_BLOCK` compress the block at the start of `BUF` into `H`. -/
theorem procLines_shaBlock (hs : s.ReadyToHash) :
    ∃ t, procLines [.wr .src 0, .cmd .shaBlock] s = .done t () ∧ t.ReadyToHash ∧
      t.h = compress s.h (memRead s 0 64) := by
  obtain ⟨-, hsize, -⟩ := (legalBufBytes_iff _).1 hs.legal
  have hexec := (hostAccess_cmd .shaBlock (s.setSrc 0)).trans
    (exec_shaBlock_of_ready hs.err hs.hValid (Nat.le_trans (by simp) hsize))
  have hblock : memRead (s.setSrc 0) (s.setSrc 0).src.toNat 64 = memRead s 0 64 := memRead_congr rfl rfl ..
  rw [hblock, State.setSrc_h] at hexec
  refine ⟨{ s.setSrc 0 with h := compress s.h (memRead s 0 64) }, ?_,
    ⟨hs.err, hs.hValid, hs.legal⟩, rfl⟩
  rw [procLines, runLines_cons (hostAccess_wr_src 0 s), runLines_cons hexec]
  rfl

/-- Block `k` of a padded message. -/
def messageBlock (p : List Byte) (k : Nat) : Vector Byte 64 :=
  Vector.ofFn fun i => p.getD (64 * k + i.val) 0

theorem take_eq_messageBlock {p : List Byte} (hp : 64 ≤ p.length) :
    p.take 64 = (messageBlock p 0).toList := by
  refine List.ext_getElem (by simpa using hp) fun i hi _ => ?_
  have hip : i < p.length := by rw [List.length_take] at hi; omega
  simp [messageBlock, hip]

theorem messageBlock_drop (p : List Byte) (k : Nat) :
    messageBlock (p.drop 64) k = messageBlock p (k + 1) := by
  ext i hi : 1
  have hindex : 64 + (64 * k + i) = 64 * (k + 1) + i := by omega
  simp [messageBlock, hindex]

/-- The chain of `Compress` over the first `n` blocks (rule R123). -/
def hashChain (h : Vector Word 8) (p : List Byte) (n : Nat) : Vector Word 8 :=
  (List.range n).foldl (fun h k => compress h (messageBlock p k)) h

/-- The chain begins with the first block and goes on over the rest. -/
theorem hashChain_succ (h : Vector Word 8) (p : List Byte) (n : Nat) :
    hashChain h p (n + 1) = hashChain (compress h (messageBlock p 0)) (p.drop 64) n := by
  simp only [hashChain, List.range_succ_eq_map, List.foldl_cons, List.foldl_map, messageBlock_drop]

/-- The loop of rule R221 runs through and leaves the chain in `H`. -/
theorem digestBlocks_spec {n : Nat} {p : List Byte} (hs : s.ReadyToHash) (hp : 64 * n ≤ p.length) :
    ∃ t, digestBlocks n p s = .done t () ∧ t.h = hashChain s.h p n := by
  induction n generalizing s p with
  | zero => exact ⟨s, rfl, rfl⟩
  | succ n ih =>
    obtain ⟨u, hload, hu, huh, hblock⟩ := procLoad_block hs (messageBlock p 0)
    obtain ⟨v, hrun, hv, hvh⟩ := procLines_shaBlock hu
    obtain ⟨t, hrest, hth⟩ := ih (p := p.drop 64) hv (by rw [List.length_drop]; omega)
    refine ⟨t, ?_, ?_⟩
    · rw [digestBlocks, take_eq_messageBlock (by omega), hload, Proc.andThen, hrun]
      exact hrest
    · rw [hth, hvh, huh, hblock, hashChain_succ]

/-- The eight `RD Hi` of rule R221 read the words of `H` in order. -/
theorem readHash_eq (s : State) : readHash s = s.h.toList := by
  refine List.ext_getElem (by simp [readHash]) fun i hi _ => ?_
  have hi8 : i < 8 := by simpa [readHash] using hi
  simp [readHash, readReg_h, Nat.mod_eq_of_lt hi8]

/-- Settles O57: `SHA_INIT` makes the engine ready with `HINIT` in `H`, the loop leaves the chain there, and
the eight reads give its bytes. -/
theorem digestIsTheHashOfThePaddedMessage : Obligations.DigestIsTheHashOfThePaddedMessage := by
  intro s m p he hlegal hpad
  obtain ⟨u, hinit, hu, huh⟩ := procLines_shaInit he hlegal
  obtain ⟨t, hblocks, hth⟩ := digestBlocks_spec (n := p.length / 64) (p := p) hu (by omega)
  refine ⟨t, ?_⟩
  simp only [digest, hpad, hinit, Proc.andThen, hblocks, readHash_eq, hth, huh]
  rfl

/-! ### What `decryptFile` answers (rules R227, R229) -/

section DecryptFile
variable {file : List Byte} (passphrase : List Byte) (useMasterKey : Bool) (s : State)

theorem decryptFile_short (h1 : 1 ≤ file.length) (h23 : file.length ≤ 23) :
    decryptFile file passphrase useMasterKey s = .noResult := by
  rw [decryptFile, if_neg (by omega), if_pos (by omega)]

theorem decryptFile_badMagic (hlen : 24 ≤ file.length) (hmagic : be32At file 0 ≠ fileMagic) :
    decryptFile file passphrase useMasterKey s = .failed s .unsupportedFileFormat := by
  rw [decryptFile, if_neg (by omega), if_neg (by omega), if_pos hmagic]

theorem decryptFile_noMasterKey (hlen : 24 ≤ file.length) (hmagic : be32At file 0 = fileMagic)
    (htag : be32At file 4 = tagNoMasterKey) :
    decryptFile file passphrase useMasterKey s = decryptWithTag file passphrase useMasterKey false s := by
  rw [decryptFile, if_neg (by omega), if_neg (by omega), if_neg (not_not.2 hmagic), if_pos htag]

theorem decryptFile_hasMasterKey (hlen : 24 ≤ file.length) (hmagic : be32At file 0 = fileMagic)
    (htag : be32At file 4 = tagHasMasterKey) :
    decryptFile file passphrase useMasterKey s =
      if file.length < 72 then .noResult else decryptWithTag file passphrase useMasterKey true s := by
  rw [decryptFile, if_neg (by omega), if_neg (by omega), if_neg (not_not.2 hmagic),
    if_neg (by rw [htag]; decide), if_pos htag]

/-- Without the master key, of the header only the primary IV is used, and of the tag only where the body
begins. -/
theorem decryptWithTag_passphraseOnly (hasMaster : Bool) :
    decryptWithTag file passphrase false hasMaster s =
      (digest passphrase s).andThen fun s cipherKey =>
        decryptBody (file.drop (if hasMaster then 72 else 24)) cipherKey (slice file 8 16) s := rfl

end DecryptFile

/-- Settles O59: both ranges end at a test of the length, before the engine is touched. -/
theorem shortFilesHaveNoResult : Obligations.ShortFilesHaveNoResult := by
  refine fun s file passphrase useMasterKey => ⟨decryptFile_short _ _ _, fun h24 h71 hmagic htag => ?_⟩
  rw [decryptFile_hasMasterKey _ _ _ h24 hmagic htag, if_pos (by omega)]

/-! ### The file without its master-key section (rule R228) -/

theorem be32At_append_left {b : List Byte} {k : Nat} (h : k + 4 ≤ b.length) (c : List Byte) :
    be32At (b ++ c) k = be32At b k := by
  simp (disch := omega) only [be32At, List.getD_append]

theorem be32At_append_right (b c : List Byte) (k : Nat) : be32At (b ++ c) (b.length + k) = be32At c k := by
  simp [be32At, Nat.add_assoc, List.getElem?_append_right]

/-- The file without bytes 24 to 71 and with the tag of a file without a master key. -/
def withoutMasterSection (file : List Byte) : List Byte :=
  file.take 4 ++ [0x01, 0x00, 0x00, 0x00] ++ slice file 8 16 ++ file.drop 72

section WithoutMasterSection
variable {file : List Byte} (h : 72 ≤ file.length)
include h

theorem withoutMasterSection_header_length :
    (file.take 4 ++ [0x01, 0x00, 0x00, 0x00]).length = 8 := by
  simp; omega

theorem slice_iv_length : (slice file 8 16).length = 16 := by
  simp [slice]; omega

theorem withoutMasterSection_length : 24 ≤ (withoutMasterSection file).length := by
  rw [withoutMasterSection, List.length_append, List.length_append,
    withoutMasterSection_header_length h, slice_iv_length h]
  omega

theorem withoutMasterSection_magic : be32At (withoutMasterSection file) 0 = be32At file 0 := by
  have hfour := (List.length_take_of_le (i := 4) (l := file) (by omega)).ge
  calc be32At (withoutMasterSection file) 0
    _ = be32At (file.take 4) 0 := by
      simp only [withoutMasterSection, List.append_assoc, be32At_append_left hfour]
    _ = be32At (file.take 4 ++ file.drop 4) 0 := (be32At_append_left hfour _).symm
    _ = be32At file 0 := by rw [List.take_append_drop]

theorem withoutMasterSection_tag : be32At (withoutMasterSection file) 4 = tagNoMasterKey := by
  have hfour : (file.take 4).length = 4 := List.length_take_of_le (by omega)
  calc be32At (withoutMasterSection file) 4
    _ = be32At (file.take 4 ++ _) ((file.take 4).length + 0) := by
      rw [hfour, withoutMasterSection, List.append_assoc, List.append_assoc]
    _ = be32At ([0x01, 0x00, 0x00, 0x00] ++ _) 0 := be32At_append_right ..
    _ = be32At [0x01, 0x00, 0x00, 0x00] 0 := be32At_append_left (le_refl 4) _
    _ = tagNoMasterKey := by decide

theorem withoutMasterSection_iv : slice (withoutMasterSection file) 8 16 = slice file 8 16 := by
  rw [slice, withoutMasterSection, List.append_assoc, List.drop_left' (withoutMasterSection_header_length h),
    List.take_left' (slice_iv_length h)]

theorem withoutMasterSection_body : (withoutMasterSection file).drop 24 = file.drop 72 :=
  List.drop_left' (by
    rw [List.length_append, withoutMasterSection_header_length h, slice_iv_length h])

end WithoutMasterSection

/-- Settles O58: the two files have the same magic, primary IV and body, which is all of them that is used
without the master key. -/
theorem unusedMasterSectionIsIgnored : Obligations.UnusedMasterSectionIsIgnored := by
  intro s file passphrase h htag
  show _ = decryptFile (withoutMasterSection file) passphrase false s
  have hlen := withoutMasterSection_length h
  have hmagic := withoutMasterSection_magic h
  by_cases hfile : be32At file 0 = fileMagic
  · rw [decryptFile_hasMasterKey _ _ _ (by omega) hfile htag, if_neg (by omega),
      decryptFile_noMasterKey _ _ _ hlen (hmagic.trans hfile) (withoutMasterSection_tag h),
      decryptWithTag_passphraseOnly, decryptWithTag_passphraseOnly, withoutMasterSection_iv h]
    simp only [if_true, Bool.false_eq_true, if_false, withoutMasterSection_body h]
  · rw [decryptFile_badMagic _ _ _ (by omega) hfile,
      decryptFile_badMagic _ _ _ hlen (hmagic ▸ hfile)]

end Sys2Proof.Machine
end

section
/-! PROOFS. The obligations of `spec/60_exceptions.md`: a command that raises an error has written nothing but
the latch (O8), which command can raise which error (O9), and the order of the tests (O10). -/

namespace Sys2Proof.Machine

variable {s t : State}

/-! ### The two ways a command ends (rules R252, R254) -/

/-- The table of rule R252: the errors that each command can raise. -/
def raisableErrors : Instr → List EngineError
  | .nop | .clear | .shaInit => []
  | .shaBlock => [.hashNotInitialised, .bufferRange]
  | .aesKeyexp => [.invalidKeyLength]
  | .aesDecblk => [.keyNotExpanded, .bufferRange]
  | .cbcDecrypt => [.invalidLength, .invalidKeyLength, .bufferRange]

/-- With no error latched a command leaves none latched, or its whole effect is to latch an error of its row
of the table. -/
theorem exec_completes_or_raises {i : Instr} (hs : s.err = 0) (h : exec i s = .next t) :
    t.err = 0 ∨ ∃ e ∈ raisableErrors i, ∃ info, t = latchError e info s := by
  cases i with
  | nop => rw [execNop_cases h]; exact .inl hs
  | clear => rw [execClear_cases h]; exact .inl rfl
  | shaInit => rcases execShaInit_cases h with ⟨-, rfl⟩ | ⟨-, rfl⟩ <;> exact .inl hs
  | shaBlock =>
    rcases execShaBlock_cases h with ⟨-, rfl⟩ | ⟨-, -, rfl⟩ | ⟨-, -, -, rfl⟩ | ⟨-, -, -, rfl⟩
    · exact .inl hs
    · exact .inr ⟨.hashNotInitialised, by decide, _, rfl⟩
    · exact .inr ⟨.bufferRange, by decide, _, rfl⟩
    · exact .inl ((State.setHash_err ..).trans hs)
  | aesKeyexp =>
    rcases execAesKeyexp_cases h with ⟨-, rfl⟩ | ⟨-, -, rfl⟩ | ⟨-, -, rfl⟩
    · exact .inl hs
    · exact .inr ⟨.invalidKeyLength, by decide, _, rfl⟩
    · exact .inl (expandIntoKs_err.trans hs)
  | aesDecblk =>
    rcases execAesDecblk_cases h with ⟨-, rfl⟩ | ⟨-, -, rfl⟩ | ⟨-, -, -, rfl⟩ | ⟨-, -, -, rfl⟩
    · exact .inl hs
    · exact .inr ⟨.keyNotExpanded, by decide, _, rfl⟩
    · exact .inr ⟨.bufferRange, by decide, _, rfl⟩
    · exact .inl ((memWrite_err ..).trans hs)
  | cbcDecrypt =>
    rcases execCbcDecrypt_cases h with ⟨-, rfl⟩ | ⟨-, -, rfl⟩ | ⟨-, -, -, rfl⟩ | ⟨-, -, -, -, rfl⟩ |
      ⟨-, -, -, -, rfl⟩
    · exact .inl hs
    · exact .inr ⟨.invalidLength, by decide, _, rfl⟩
    · exact .inr ⟨.invalidKeyLength, by decide, _, rfl⟩
    · exact .inr ⟨.bufferRange, by decide, _, rfl⟩
    · exact .inl (by rw [cbcLoop_err, expandIntoKs_err, hs])

/-- Settles O8: a command that leaves an error latched has only latched it. -/
theorem failedCommandWritesOnlyTheLatch : Obligations.FailedCommandWritesOnlyTheLatch := by
  intro s t i hs h ht
  obtain ⟨e, -, info, rfl⟩ := (exec_completes_or_raises hs h).resolve_left ht
  rfl

/-- Settles O9: the error latched is one of the command's row, read off with its code. -/
theorem commandsRaiseOnlyTheirErrors : Obligations.CommandsRaiseOnlyTheirErrors := by
  intro s t i hs h ht
  obtain ⟨e, he, info, rfl⟩ := (exec_completes_or_raises hs h).resolve_left ht
  rw [latchError_err]
  cases i <;> simp only [raisableErrors, List.mem_cons, List.not_mem_nil, or_false] at he
  case shaBlock => rcases he with rfl | rfl <;> simp [errorCode]
  case aesKeyexp => subst he; simp [errorCode]
  case aesDecblk => rcases he with rfl | rfl <;> simp [errorCode]
  case cbcDecrypt => rcases he with rfl | rfl | rfl <;> simp [errorCode]

/-! ### The checks that fail (rule R258)

`execAesKeyexp_of_illegal` is the one of `AES_KEYEXP`. -/

theorem legalKeyLength_of_ne (h16 : s.keylen ≠ 16) (h24 : s.keylen ≠ 24) (h32 : s.keylen ≠ 32) :
    legalKeyLength s = false := by
  rw [← Bool.not_eq_true, legalKeyLength_iff, not_or, not_or]
  exact ⟨h16, h24, h32⟩

section FailedCheck
variable (he : s.err = 0)
include he

theorem execShaBlock_of_noHash (hv : s.hValid = false) :
    execShaBlock s = .next (latchError .hashNotInitialised 0 s) := by
  rw [execShaBlock, unlessLatched_of_clean he, if_pos hv, raise]

theorem execShaBlock_of_outOfRange (hv : s.hValid = true) (hr : s.bufBytes < s.src.toNat + 64) :
    execShaBlock s = .next (latchError .bufferRange s.src s) := by
  rw [execShaBlock, unlessLatched_of_clean he, if_neg (by simp [hv]), if_pos ((outOfRange_iff _).2 hr),
    raise]

theorem execAesDecblk_of_noSchedule (hv : s.ksValid = false) :
    execAesDecblk s = .next (latchError .keyNotExpanded 0 s) := by
  rw [execAesDecblk, unlessLatched_of_clean he, if_pos hv, raise]

theorem execAesDecblk_of_outOfRange (hv : s.ksValid = true) (hr : s.bufBytes < s.src.toNat + 16) :
    execAesDecblk s = .next (latchError .bufferRange s.src s) := by
  rw [execAesDecblk, unlessLatched_of_clean he, if_neg (by simp [hv]), if_pos ((outOfRange_iff _).2 hr),
    raise]

theorem execCbcDecrypt_of_badLength (hl : s.len.toNat % 16 ≠ 0) :
    execCbcDecrypt s = .next (latchError .invalidLength s.len s) := by
  rw [execCbcDecrypt, unlessLatched_of_clean he, if_pos (badLength_iff.2 hl), raise]

theorem execCbcDecrypt_of_illegal (hl : s.len.toNat % 16 = 0) (hk : legalKeyLength s = false) :
    execCbcDecrypt s = .next (latchError .invalidKeyLength s.keylen s) := by
  rw [execCbcDecrypt, unlessLatched_of_clean he, if_neg (by simp [badLength_iff, hl]), if_pos hk, raise]

theorem execCbcDecrypt_of_outOfRange (hl : s.len.toNat % 16 = 0) (hk : legalKeyLength s = true)
    (hr : s.bufBytes < s.src.toNat + s.len.toNat) :
    execCbcDecrypt s = .next (latchError .bufferRange s.src s) := by
  rw [execCbcDecrypt, unlessLatched_of_clean he, if_neg (by simp [badLength_iff, hl]),
    if_neg (by simp [hk]), if_pos ((outOfRange_iff _).2 hr), raise]

end FailedCheck

/-- Settles O10: first the latch, then the decoder, then the commands' own checks, each with those before it
passed. -/
theorem checksAreMadeInOrder : Obligations.ChecksAreMadeInOrder :=
  ⟨fun _ _ hs hv => takeCommand_dropped hs hv,
    fun _ _ hs hv => takeCommand_illegal hv hs,
    fun _ => execShaBlock_of_noHash,
    fun _ => execShaBlock_of_outOfRange,
    fun _ hs h16 h24 h32 => execAesKeyexp_of_illegal hs (legalKeyLength_of_ne h16 h24 h32),
    fun _ => execAesDecblk_of_noSchedule,
    fun _ => execAesDecblk_of_outOfRange,
    fun _ => execCbcDecrypt_of_badLength,
    fun _ hs hl h16 h24 h32 => execCbcDecrypt_of_illegal hs hl (legalKeyLength_of_ne h16 h24 h32),
    fun _ hs hl hk => execCbcDecrypt_of_outOfRange hs hl (legalKeyLength_iff.2 hk)⟩

end Sys2Proof.Machine
end

section
/-! PROOFS. The obligation of `spec/70_reset_and_hazards.md`: hard reset and `CLEAR` leave the same state but
for `BUF` (O13). -/

namespace Sys2Proof.Machine

/-- `CLEAR` leaves `BUF` unchanged (rule R206). -/
@[simp] theorem readByte_clearRegisters (s : State) (a : Nat) :
    readByte (clearRegisters s) a = readByte s a :=
  readByte_congr (clearRegisters_buf s) (clearRegisters_resets s) a

/-- Hard reset leaves no byte of `BUF` written (rule R280): each reads as the free value of the new reset
number. -/
@[simp] theorem readByte_hardReset (s : State) (a : Nat) :
    readByte (hardReset s) a = Config.freeBufByte (s.resets + 1) a := by
  rw [readByte, hardReset_buf, hardReset_resets, Memory.get?, Option.getD_none]

/-- Rule R281: `BUF` apart, hard reset leaves what `CLEAR` leaves. -/
theorem hardReset_eq_clearRegisters_but_buf (s : State) :
    hardReset s =
      { clearRegisters s with buf := (hardReset s).buf, resets := (hardReset s).resets } := rfl

/-- Settles O13: taking the reset off the host's list touches no byte of `BUF`, so the two resets start from
the same state, and `BUF` is all they treat differently. -/
theorem hardResetAgreesWithClearButForBuf : Obligations.HardResetAgreesWithClearButForBuf := by
  intro s rest hp
  have hstep : step s = .next (hardReset (s.setPending rest)) := step_of_pending hp
  have hkept (a : Nat) : readByte (clearRegisters (s.setPending rest)) a = readByte s a :=
    (readByte_clearRegisters _ a).trans (readByte_congr rfl rfl a)
  exact ⟨_, _, hstep, exec_clear _, hardReset_eq_clearRegisters_but_buf _, hkept, readByte_hardReset _⟩

end Sys2Proof.Machine
end
